-- ==== Sys2Proof/Word.lean ====
section
/-!
DEFINITION. The number and bit types of the block.
A `Word` of the spec is an unsigned integer below 2^WORD_BITS (00_scope.md R10) and all its arithmetic is on
naturals, narrowed only where a rule says so; WORD_BITS is a parameter (R8). So a register, a memory word, the pc and
a resolved operand value are of Lean's type `Nat` throughout, and "below 2^WORD_BITS" is part of the state's invariant
(notes/assumptions/1.md, DESIGN CHOICE). Instruction words and their byte fields are bit fields, so they are bit
vectors.
-/

namespace Sys2Proof

/-- One byte of an instruction (30_encoding.md R70). -/
abbrev Byte := BitVec 8

/-- A 32-bit instruction word (30_encoding.md R70). -/
abbrev InsnWord := BitVec 32

/-- The index of a general register, 0 to 15 (10_state.md R20). -/
abbrev RegIndex := Fin 16

/-- Text on the console port and in the toolchain: Unicode characters (45_io.md R212, 30_encoding.md R90). -/
abbrev Text := List Char

end Sys2Proof
end

