-- ==== Sys2Proof/Syntax.lean ====
section
/-!
DEFINITION. The syntax of the gorpvm instruction set: operand bytes by addressing mode (30_encoding.md R73), the
closed sum of the twenty opcodes (R83) and the instructions, one constructor per row of opcode_table.json. Every
instruction carries its three operand bytes, because every one is resolved for every opcode (R77).
The row `let` is the constructor `let_`, since `let` is a word of Lean.
-/

namespace Sys2Proof

/-- An operand byte, by the addressing mode its leading bits select (30_encoding.md R73). -/
inductive Operand where
  /-- `1vvvvvvv`: immediate. -/
  | imm (v : BitVec 7)
  /-- `01vvvvvv`: offset, resolved to pc + v. -/
  | off (v : BitVec 6)
  /-- `00mmvvvv` with `mm` not 00: register `v`; `mm` only selects the mode (R74). -/
  | reg (mm : BitVec 2) (r : BitVec 4)
  /-- `0000vvvv`: narrow immediate. -/
  | narrow (v : BitVec 4)
deriving DecidableEq, Repr

/-- The closed sum type of the defined opcodes (30_encoding.md R82, R83). -/
inductive Opcode where
  | hlt
  | ldr
  | str
  | set
  | cpy
  | jpt
  | jpf
  | add
  | sub
  | mul
  | div
  | mod
  | eql
  | neq
  | let_
  | leq
  | grt
  | geq
  | sti
  | sto
deriving DecidableEq, Repr

/-- The instructions, one constructor per row of opcode_table.json, each with its operand bytes `dest`, `op1` and
`op2` (30_encoding.md R70). -/
inductive Instr where
  /-- `hlt` (41_move.md R140) -/
  | hlt (dest op1 op2 : Operand)
  /-- `ldr` (41_move.md R141) -/
  | ldr (dest op1 op2 : Operand)
  /-- `str` (41_move.md R142) -/
  | str (dest op1 op2 : Operand)
  /-- `set` (41_move.md R143) -/
  | set (dest op1 op2 : Operand)
  /-- `cpy` (41_move.md R144) -/
  | cpy (dest op1 op2 : Operand)
  /-- `jpt` (42_branch.md R160) -/
  | jpt (dest op1 op2 : Operand)
  /-- `jpf` (42_branch.md R161) -/
  | jpf (dest op1 op2 : Operand)
  /-- `add` (43_arith.md R171) -/
  | add (dest op1 op2 : Operand)
  /-- `sub` (43_arith.md R172) -/
  | sub (dest op1 op2 : Operand)
  /-- `mul` (43_arith.md R173) -/
  | mul (dest op1 op2 : Operand)
  /-- `div` (43_arith.md R174) -/
  | div (dest op1 op2 : Operand)
  /-- `mod` (43_arith.md R175) -/
  | mod (dest op1 op2 : Operand)
  /-- `eql` (44_compare.md R191) -/
  | eql (dest op1 op2 : Operand)
  /-- `neq` (44_compare.md R192) -/
  | neq (dest op1 op2 : Operand)
  /-- `let` (44_compare.md R193) -/
  | let_ (dest op1 op2 : Operand)
  /-- `leq` (44_compare.md R194) -/
  | leq (dest op1 op2 : Operand)
  /-- `grt` (44_compare.md R195) -/
  | grt (dest op1 op2 : Operand)
  /-- `geq` (44_compare.md R196) -/
  | geq (dest op1 op2 : Operand)
  /-- `sti` (45_io.md R210) -/
  | sti (dest op1 op2 : Operand)
  /-- `sto` (45_io.md R211) -/
  | sto (dest op1 op2 : Operand)
deriving DecidableEq, Repr

end Sys2Proof
end

