-- ==== Sys2Proof/WellFormed.lean ====
section
/-!
DEFINITION. Which syntax an encoding can produce. Every operand byte is legal (30_encoding.md R85); the one shape of
`Operand` that no byte has is a register operand whose mode bits are 00, which would be the narrow-immediate
pattern (R73).
-/

namespace Sys2Proof

/-- A register operand's mode bits are not 00 (30_encoding.md R73); the other modes admit every value. -/
def Operand.wf : Operand → Bool
  | .reg mm _ => mm != 0#2
  | .imm _ | .off _ | .narrow _ => true

/-- The three operand bytes `dest`, `op1`, `op2` of an instruction (30_encoding.md R70). -/
def Instr.operands : Instr → Operand × Operand × Operand
  | .hlt d a b => (d, a, b)
  | .ldr d a b => (d, a, b)
  | .str d a b => (d, a, b)
  | .set d a b => (d, a, b)
  | .cpy d a b => (d, a, b)
  | .jpt d a b => (d, a, b)
  | .jpf d a b => (d, a, b)
  | .add d a b => (d, a, b)
  | .sub d a b => (d, a, b)
  | .mul d a b => (d, a, b)
  | .div d a b => (d, a, b)
  | .mod d a b => (d, a, b)
  | .eql d a b => (d, a, b)
  | .neq d a b => (d, a, b)
  | .let_ d a b => (d, a, b)
  | .leq d a b => (d, a, b)
  | .grt d a b => (d, a, b)
  | .geq d a b => (d, a, b)
  | .sti d a b => (d, a, b)
  | .sto d a b => (d, a, b)

/-- Each of the three operands is one that a byte encodes. -/
def Instr.wf (i : Instr) : Bool :=
  i.operands.1.wf && i.operands.2.1.wf && i.operands.2.2.wf

end Sys2Proof
end

