-- ==== Sys2Proof/Decode.lean ====
section
/-!
DEFINITION. The decoder, total on every word and every byte sequence, rejecting by name, and the encoder
(30_encoding.md R70 to R84, 20_memory.md R53).
-/

namespace Sys2Proof

/-! ### Fields of an instruction word (30_encoding.md R70, R71) -/

/-- `w[31:24]` -/
def opcodeByte (w : InsnWord) : Byte := w.extractLsb' 24 8

/-- `w[23:16]` -/
def destByte (w : InsnWord) : Byte := w.extractLsb' 16 8

/-- `w[15:8]` -/
def op1Byte (w : InsnWord) : Byte := w.extractLsb' 8 8

/-- `w[7:0]` -/
def op2Byte (w : InsnWord) : Byte := w.extractLsb' 0 8

/-- The word of the bytes `[opcode, dest, op1, op2]`, the opcode most significant (30_encoding.md R71). -/
def packWord (opcode dest op1 op2 : Byte) : InsnWord := opcode ++ dest ++ op1 ++ op2

/-- The 4-byte sequence of a word, big-endian: byte 0 is the opcode (20_memory.md R53). -/
def bytesOfWord (w : InsnWord) : List Byte := [opcodeByte w, destByte w, op1Byte w, op2Byte w]

/-! ### Operand bytes (30_encoding.md R73) -/

/-- The addressing mode and value of an operand byte, "checked most-significant-bit-first" (30_encoding.md R73). -/
def decodeOperand (b : Byte) : Operand :=
  if b.getLsbD 7 then .imm (b.extractLsb' 0 7)
  else if b.getLsbD 6 then .off (b.extractLsb' 0 6)
  else if b.extractLsb' 4 2 != 0#2 then .reg (b.extractLsb' 4 2) (b.extractLsb' 0 4)
  else .narrow (b.extractLsb' 0 4)

/-- The byte of an operand, from the patterns of 30_encoding.md R73. -/
def encodeOperand : Operand → Byte
  | .imm v => 1#1 ++ v
  | .off v => 1#2 ++ v
  | .reg mm r => 0#2 ++ mm ++ r
  | .narrow v => 0#4 ++ v

/-! ### The opcode map (30_encoding.md R82) -/

/-- The opcode byte of each opcode (30_encoding.md R82). -/
def Opcode.code : Opcode → Byte
  | .hlt => 0x00#8
  | .ldr => 0x01#8
  | .str => 0x02#8
  | .set => 0x03#8
  | .cpy => 0x04#8
  | .jpt => 0x10#8
  | .jpf => 0x11#8
  | .add => 0x20#8
  | .sub => 0x21#8
  | .mul => 0x22#8
  | .div => 0x23#8
  | .mod => 0x24#8
  | .eql => 0x30#8
  | .neq => 0x31#8
  | .let_ => 0x32#8
  | .leq => 0x33#8
  | .grt => 0x34#8
  | .geq => 0x35#8
  | .sti => 0x50#8
  | .sto => 0x51#8

/-- `decodeOp` of 30_encoding.md R83: the opcode of a byte, or none (Unknown) on the 236 other values. -/
def decodeOp (b : Byte) : Option Opcode :=
  match b.toNat with
  | 0x00 => some .hlt
  | 0x01 => some .ldr
  | 0x02 => some .str
  | 0x03 => some .set
  | 0x04 => some .cpy
  | 0x10 => some .jpt
  | 0x11 => some .jpf
  | 0x20 => some .add
  | 0x21 => some .sub
  | 0x22 => some .mul
  | 0x23 => some .div
  | 0x24 => some .mod
  | 0x30 => some .eql
  | 0x31 => some .neq
  | 0x32 => some .let_
  | 0x33 => some .leq
  | 0x34 => some .grt
  | 0x35 => some .geq
  | 0x50 => some .sti
  | 0x51 => some .sto
  | _ => none

/-- The group, the high nibble of the opcode byte (30_encoding.md R81). -/
def Opcode.group (o : Opcode) : BitVec 4 := o.code.extractLsb' 4 4

/-- The function, the low nibble of the opcode byte (30_encoding.md R81). -/
def Opcode.function (o : Opcode) : BitVec 4 := o.code.extractLsb' 0 4

/-- The instruction of an opcode and three operands. -/
def Opcode.instr (o : Opcode) (dest op1 op2 : Operand) : Instr :=
  match o with
  | .hlt => .hlt dest op1 op2
  | .ldr => .ldr dest op1 op2
  | .str => .str dest op1 op2
  | .set => .set dest op1 op2
  | .cpy => .cpy dest op1 op2
  | .jpt => .jpt dest op1 op2
  | .jpf => .jpf dest op1 op2
  | .add => .add dest op1 op2
  | .sub => .sub dest op1 op2
  | .mul => .mul dest op1 op2
  | .div => .div dest op1 op2
  | .mod => .mod dest op1 op2
  | .eql => .eql dest op1 op2
  | .neq => .neq dest op1 op2
  | .let_ => .let_ dest op1 op2
  | .leq => .leq dest op1 op2
  | .grt => .grt dest op1 op2
  | .geq => .geq dest op1 op2
  | .sti => .sti dest op1 op2
  | .sto => .sto dest op1 op2

/-- The opcode of an instruction. -/
def Instr.opcode : Instr → Opcode
  | .hlt _ _ _ => .hlt
  | .ldr _ _ _ => .ldr
  | .str _ _ _ => .str
  | .set _ _ _ => .set
  | .cpy _ _ _ => .cpy
  | .jpt _ _ _ => .jpt
  | .jpf _ _ _ => .jpf
  | .add _ _ _ => .add
  | .sub _ _ _ => .sub
  | .mul _ _ _ => .mul
  | .div _ _ _ => .div
  | .mod _ _ _ => .mod
  | .eql _ _ _ => .eql
  | .neq _ _ _ => .neq
  | .let_ _ _ _ => .let_
  | .leq _ _ _ => .leq
  | .grt _ _ _ => .grt
  | .geq _ _ _ => .geq
  | .sti _ _ _ => .sti
  | .sto _ _ _ => .sto

/-! ### Whole instructions -/

/-- Why a decode is rejected. -/
inductive DecodeError where
  /-- An opcode byte outside the table of 30_encoding.md R82; executing it raises UnknownOpcode (R84). -/
  | unknownOpcode (b : Byte)
  /-- Fewer than four bytes are left; every instruction is exactly 4 bytes (R70, R72). -/
  | incomplete (bytes : Nat)
deriving DecidableEq, Repr

/-- Decode one instruction word. Only the opcode byte selects the instruction (30_encoding.md R82). -/
def decodeWord (w : InsnWord) : Except DecodeError Instr :=
  match decodeOp (opcodeByte w) with
  | some o => .ok (o.instr (decodeOperand (destByte w)) (decodeOperand (op1Byte w)) (decodeOperand (op2Byte w)))
  | none => .error (.unknownOpcode (opcodeByte w))

/-- Decode the first instruction of a byte sequence, big-endian (20_memory.md R53), with the bytes that follow it. -/
def decodeBytes : List Byte → Except DecodeError (Instr × List Byte)
  | b0 :: b1 :: b2 :: b3 :: rest =>
    match decodeWord (packWord b0 b1 b2 b3) with
    | .ok i => .ok (i, rest)
    | .error e => .error e
  | short => .error (.incomplete short.length)

/-- The word of an instruction (30_encoding.md R70, R73, R82). -/
def encode (i : Instr) : InsnWord :=
  packWord i.opcode.code (encodeOperand i.operands.1) (encodeOperand i.operands.2.1) (encodeOperand i.operands.2.2)

/-- The bytes of an instruction (20_memory.md R53). -/
def encodeBytes (i : Instr) : List Byte := bytesOfWord (encode i)

/-- The words of a raw byte program, "read exactly 4 at a time"; none when the length is not a multiple of 4
(20_memory.md R55, 70_reset_and_hazards.md R252). -/
def packProgram : List Byte → Option (List InsnWord)
  | [] => some []
  | b0 :: b1 :: b2 :: b3 :: rest => (packProgram rest).map (packWord b0 b1 b2 b3 :: ·)
  | _ => none

/-- The instruction the decoder reads from the bits `w` of a table row of `nbits` bits: the one 32-bit word, laid
out as its four bytes, the opcode first. -/
def decodeTableWord (nbits w : Nat) : Option Instr :=
  match decodeBytes (bytesOfWord (BitVec.ofNat 32 (w % 2 ^ nbits))) with
  | .ok (i, _) => some i
  | .error _ => none

end Sys2Proof
end

