-- ==== Sys2Proof/Config.lean ====
section
/-!
DEFINITION. The implementation parameters of 00_scope.md R8 and the free values of the spec.
The parameters are open in the spec (92_eei_decisions.md D1, D2, D19) with a default each. A state carries its
configuration, so that every statement holds for every setting (notes/assumptions/2.md).
-/

namespace Sys2Proof

/-- OVERFLOW_POLICY of 00_scope.md R8: what `add`, `sub` and `mul` do when the exact result does not fit. -/
inductive OverflowPolicy where
  | fault
  | wrap
deriving DecidableEq, Repr

/-- The parameters of 00_scope.md R8 that an implementation chooses. -/
structure Config where
  /-- WORD_BITS -/
  wordBits : Nat
  /-- MEM_WORDS -/
  memWords : Nat
  /-- OVERFLOW_POLICY -/
  overflow : OverflowPolicy
deriving DecidableEq, Repr

/-- The defaults of 00_scope.md R8: 64-bit words, 65536 memory words, overflow faults. -/
def Config.default : Config := { wordBits := 64, memWords := 65536, overflow := .fault }

/-- FREE VALUE: a numeric field of the fault latch after a load has made it unspecified (10_state.md R32,
93_implementation_defined.md section 2), for the n-th draw (notes/assumptions/7.md). -/
opaque Config.unspecifiedNumber : Nat → Nat

/-- FREE VALUE: the `fword` field of the fault latch after a load has made it unspecified (10_state.md R32), for the
n-th draw (notes/assumptions/7.md). -/
opaque Config.unspecifiedInsnWord : Nat → InsnWord

end Sys2Proof
end

