-- ==== Sys2Proof/Machine/State.lean ====
section
/-!
DEFINITION. The state of the block as plain data (10_state.md R37), the spec's faults, and the state after
construction (70_reset_and_hazards.md R250).
-/

namespace Sys2Proof.Machine

/-- The run state (10_state.md R30). -/
inductive RunState where
  | suspended
  | running
  | halting
deriving DecidableEq, Repr

/-- The faults the spec names, by sub-kind (60_exceptions.md R220). They are recorded in the fault latch and are NEXT
states of the model (notes/assumptions/4.md); they are no `Machine.Fault`. -/
inductive FaultKind where
  /-- UnknownOpcode: a fetched word whose opcode is not in the map. -/
  | unknownOpcode
  /-- ArithmeticFault: `div` by zero. -/
  | divByZero
  /-- ArithmeticFault: `mod` by zero. -/
  | modByZero
  /-- ArithmeticFault: `add`, `sub`, `mul` out of range under the policy `fault`. -/
  | overflow
  /-- OutOfBounds: a register index of 16 or more. -/
  | register
  /-- OutOfBounds: a data address at or above MEM_WORDS. -/
  | memory
  /-- OutOfBounds: the pc leaves the range of a word. -/
  | pc
  /-- OutOfBounds: an offset operand's sum leaves the range of a word. -/
  | operand
  /-- IOFailure: the host reports a read failure or end of input. -/
  | read
  /-- IOFailure: the input line does not parse. -/
  | parse
  /-- IOFailure: the host reports a write failure. -/
  | write
deriving DecidableEq, Repr

/-- A fault as an instruction raises it: `raise <Fault>(<sub-kind>, info)` of 00_scope.md R11. -/
structure Raised where
  kind : FaultKind
  info : Nat
deriving DecidableEq, Repr

/-- The fault latch (10_state.md R32), with the codes of 60_exceptions.md R220 in `cause` and `sub`. -/
structure FaultLatch where
  valid : Bool
  cause : Nat
  sub : Nat
  fpc : Nat
  fword : InsnWord
  info : Nat
deriving DecidableEq, Repr

/-- The host's answer to `ReadLine()` (45_io.md R212): a line without its terminator, or fail. -/
inductive LineAnswer where
  | line (text : Text)
  | fail
deriving DecidableEq, Repr

/-- The host's answer to `WriteText(s)` (45_io.md R212). -/
inductive WriteAnswer where
  | ok
  | fail
deriving DecidableEq, Repr

/-- Data memory: the words that differ from what an unlisted address reads as, with their word addresses, in rising
order (20_memory.md R50; the cells are words because memory has no byte view, R54: notes/assumptions/3.md). -/
abbrev Memory := List (Nat × Nat)

/-- All state of the block (10_state.md R36, R37), its configuration (00_scope.md R8), and the host's console answers
not yet used (10_state.md R41). -/
structure State where
  /-- The implementation parameters (00_scope.md R8); no step changes them (notes/assumptions/2.md). -/
  cfg : Config
  /-- The general registers x[0..15] (10_state.md R20). -/
  regs : Vector Nat 16
  /-- The program counter, an instruction index (10_state.md R24). -/
  pc : Nat
  /-- The run state (10_state.md R30). -/
  run : RunState
  /-- The fault latch (10_state.md R32). -/
  fault : FaultLatch
  /-- The loaded instruction sequence (10_state.md R33). -/
  rom : List InsnWord
  /-- Data memory (10_state.md R34). -/
  mem : Memory
  /-- The input channel: the host's answers to `ReadLine()` not yet consumed, the next first (10_state.md R36, R41). -/
  lines : List LineAnswer
  /-- The host's answers to `WriteText` not yet used, the next first (10_state.md R41; the model's own field,
  notes/assumptions/8.md). -/
  acks : List WriteAnswer
  /-- The output channel: the texts written, the oldest first (10_state.md R41, 20_memory.md R64). -/
  output : List Text
  /-- How many free values have been drawn (the model's own field, notes/assumptions/7.md). -/
  draws : Nat
deriving DecidableEq, Repr

/-- Why a step stops with a fault. There is no constructor, so nobody raises one: the spec describes the state after
every fault of the block, the fault latch, so each is a next state (60_exceptions.md R226; notes/assumptions/4.md).
Safe: nothing stops where the spec goes on. -/
inductive Fault where
deriving DecidableEq, Repr

/-- Why a step is refused. -/
inductive Refusal where
  /-- An instruction without a meaning yet. Raised only by a refused arm of `exec`, of which none is left. Safe: the
  model stops where the hardware goes on. -/
  | notModelled (mnemonic : String)
deriving DecidableEq, Repr

/-- What a step or an instruction answers. -/
abbrev Result := Host.Outcome State Fault Refusal

/-- The state after `construct()` with the parameters `c` (70_reset_and_hazards.md R250, R251; 10_state.md R37):
registers and memory zero, ROM empty, pc 0, Suspended, no fault latched. The latch fields other than `valid` are
unspecified by the spec; they are zero here (DESIGN CHOICE, unsafe: notes/assumptions/6.md). The host has answered
nothing yet (notes/assumptions/8.md), and the output channel holds no text, which the spec does not say (DESIGN CHOICE,
unsafe: notes/assumptions/16.md). -/
def State.constructWith (c : Config) : State where
  cfg := c
  regs := Vector.replicate 16 0
  pc := 0
  run := .suspended
  fault := { valid := false, cause := 0, sub := 0, fpc := 0, fword := 0#32, info := 0 }
  rom := []
  mem := []
  lines := []
  acks := []
  output := []
  draws := 0

/-- The machine right after reset: construction is the block's reset (70_reset_and_hazards.md R250), with the default
parameters of 00_scope.md R8. -/
def State.reset : State := State.constructWith Config.default

end Sys2Proof.Machine
end

