-- ==== Sys2Proof/Machine/Text.lean ====
section
/-!
DEFINITION. The text conversions of the console (45_io.md R213), which the toolchain shares: decimal rendering,
white space and digit runs.
-/

namespace Sys2Proof.Machine

/-- The ASCII digit of a number below 10. -/
def digitChar (d : Nat) : Char := Char.ofNat (48 + d)

/-- The base-10 digits of `v`, most significant first, in front of `acc`; `fuel` above `v` suffices. -/
def decimalDigits : Nat → Nat → Text → Text
  | 0, _, acc => acc
  | fuel + 1, v, acc =>
    if v < 10 then digitChar v :: acc else decimalDigits fuel (v / 10) (digitChar (v % 10) :: acc)

/-- `decimal(v)`: base 10, no sign, no leading zeros, no separators, `0` for zero (45_io.md R213). -/
def decimal (v : Nat) : Text := decimalDigits (v + 1) v []

/-- An ASCII digit `0` to `9` (45_io.md R213, 30_encoding.md R91). -/
def isAsciiDigit (c : Char) : Bool := 48 ≤ c.toNat && c.toNat ≤ 57

/-- The value of an ASCII digit. -/
def digitValue (c : Char) : Nat := c.toNat - 48

/-- The value of a run of ASCII digits, read in base 10. -/
def numberOf (digits : Text) : Nat := digits.foldl (fun n c => 10 * n + digitValue c) 0

/-- White space: the characters of Unicode's property White_Space (PRESUMED: 30_encoding.md R90 says "Unicode white
space" and lists none, 45_io.md R213 says "white space"; notes/assumptions/13.md). -/
def isWhite (c : Char) : Bool :=
  let n := c.toNat
  (9 ≤ n && n ≤ 13) || n == 0x20 || n == 0x85 || n == 0xA0 || n == 0x1680 || (0x2000 ≤ n && n ≤ 0x200A) ||
    n == 0x2028 || n == 0x2029 || n == 0x202F || n == 0x205F || n == 0x3000

/-- Remove white space at both ends (45_io.md R213, 30_encoding.md R90). -/
def trim (t : Text) : Text := ((t.dropWhile isWhite).reverse.dropWhile isWhite).reverse

/-- `parseUnsigned(s)` for words of at most `maxWord`: white space trimmed, then one or more ASCII digits whose value
fits, leading zeros accepted; anything else is fail, here none (45_io.md R213). -/
def parseUnsigned (maxWord : Nat) (s : Text) : Option Nat :=
  let digits := trim s
  if digits.isEmpty then none
  else if digits.all isAsciiDigit then
    if numberOf digits ≤ maxWord then some (numberOf digits) else none
  else none

end Sys2Proof.Machine
end

