-- ==== Sys2Proof/Machine/Ops.lean ====
section
/-!
DEFINITION. The operations the instruction rules share: word ranges, registers, data memory, the bounds checks of
00_scope.md R11, raising and taking a fault (60_exceptions.md R225, R226), the commit of an instruction
(40_cycle.md R121) and fetch (40_cycle.md R120).
-/

namespace Sys2Proof.Machine

/-! ### The range of a word (00_scope.md R10) -/

/-- 2^WORD_BITS. -/
def State.modulus (s : State) : Nat := 2 ^ s.cfg.wordBits

/-- The greatest word, 2^WORD_BITS - 1. -/
def State.maxWord (s : State) : Nat := s.modulus - 1

/-! ### Registers (10_state.md R20 to R22, R43) -/

/-- `x[i]`. -/
def State.readReg (s : State) (i : RegIndex) : Nat := s.regs[i]

/-- `x[i] <- v`. -/
def State.writeReg (s : State) (i : RegIndex) (v : Nat) : State := { s with regs := s.regs.set i v }

/-- `checkReg(i)` of 00_scope.md R11: the index as a register number, or OutOfBounds(Register, i). -/
def checkReg (i : Nat) : Except Raised RegIndex :=
  if h : i < 16 then .ok ⟨i, h⟩ else .error { kind := .register, info := i }

/-! ### Data memory (10_state.md R34, 20_memory.md R50, R57, R59) -/

/-- What an address that nothing is listed for reads as: memory is zero at construction (10_state.md R34). -/
def Memory.unlisted : Nat := 0

/-- The word at an address. -/
def Memory.read : Memory → Nat → Nat
  | [], _ => Memory.unlisted
  | (b, w) :: rest, a => if a = b then w else Memory.read rest a

/-- Write the word at an address, keeping the canonical form. -/
def Memory.write : Memory → Nat → Nat → Memory
  | [], a, v => if v = Memory.unlisted then [] else [(a, v)]
  | (b, w) :: rest, a, v =>
    if a < b then if v = Memory.unlisted then (b, w) :: rest else (a, v) :: (b, w) :: rest
    else if a = b then if v = Memory.unlisted then rest else (a, v) :: rest
    else (b, w) :: Memory.write rest a v

/-- The canonical form: addresses strictly rise and no listed word is what an unlisted address reads as. -/
def Memory.wf : Memory → Bool
  | [] => true
  | (a, v) :: rest => v != Memory.unlisted && rest.all (fun c => decide (a < c.1)) && Memory.wf rest

/-- Every listed address exists and every listed word is at most `maxWord`. -/
def Memory.inRange (memWords : Nat) (maxWord : Nat) (m : Memory) : Bool :=
  m.all fun c => decide (c.1 < memWords) && decide (c.2 ≤ maxWord)

/-- `MemRead(a, 1)` of 00_scope.md R11. -/
def State.memRead (s : State) (a : Nat) : Nat := s.mem.read a

/-- `MemWrite(a, 1, v)` of 00_scope.md R11. -/
def State.memWrite (s : State) (a : Nat) (v : Nat) : State := { s with mem := s.mem.write a v }

/-- `checkMem(a)` of 00_scope.md R11: the address, or OutOfBounds(Memory, a). -/
def State.checkMem (s : State) (a : Nat) : Except Raised Nat :=
  if a < s.cfg.memWords then .ok a else .error { kind := .memory, info := a }

/-! ### Faults (60_exceptions.md) -/

/-- The code of a fault's cause (60_exceptions.md R220). -/
def FaultKind.cause : FaultKind → Nat
  | .unknownOpcode => 1
  | .divByZero | .modByZero | .overflow => 2
  | .register | .memory | .pc | .operand => 3
  | .read | .parse | .write => 4

/-- The code of a fault's sub-kind (60_exceptions.md R220). -/
def FaultKind.sub : FaultKind → Nat
  | .unknownOpcode => 0
  | .divByZero => 0
  | .modByZero => 1
  | .overflow => 2
  | .register => 0
  | .memory => 1
  | .pc => 2
  | .operand => 3
  | .read => 0
  | .parse => 1
  | .write => 2

/-- The word `ROM[pc]`. Outside the ROM it is zero, which no step can reach (DESIGN CHOICE,
notes/assumptions/11.md). -/
def State.currentWord (s : State) : InsnWord := s.rom[s.pc]?.getD 0#32

/-- TAKING A FAULT, the block's only exception entry (60_exceptions.md R225, R226, R228): the latch records the cause,
the pc and word of the faulting instruction and `info`; nothing else is written, and the pc and the run state stay. -/
def State.takeFault (s : State) (r : Raised) : State :=
  { s with
    fault :=
      { valid := true, cause := r.kind.cause, sub := r.kind.sub, fpc := s.pc, fword := s.currentWord, info := r.info } }

/-- The one way out of a fault: there is no return from trap, only a host load clears the latch (60_exceptions.md
R229). The other fields become unspecified, so they are free values (10_state.md R32; notes/assumptions/7.md). -/
def State.clearFault (s : State) : State :=
  { s with
    fault :=
      { valid := false
        cause := Config.unspecifiedNumber (4 * s.draws)
        sub := Config.unspecifiedNumber (4 * s.draws + 1)
        fpc := Config.unspecifiedNumber (4 * s.draws + 2)
        fword := Config.unspecifiedInsnWord s.draws
        info := Config.unspecifiedNumber (4 * s.draws + 3) }
    draws := s.draws + 1 }

/-! ### The effect of one instruction (40_cycle.md R120, R121) -/

/-- What an instruction's rule computes when it raises nothing: its pc result `pc'` (40_cycle.md R120) and its writes,
"at most one register, at most one memory word, the run state, the pc, a console output" (R121). -/
structure Effect where
  /-- The pc result `pc'`, before the increment. -/
  nextPc : Nat
  reg : Option (RegIndex × Nat) := none
  mem : Option (Nat × Nat) := none
  out : Option Text := none
  halt : Bool := false
deriving DecidableEq, Repr

/-- The commit of 40_cycle.md R121: all writes together, then `pc <- pc' + 1` (10_state.md R25). -/
def State.commit (s : State) (e : Effect) : State :=
  { s with
    regs := match e.reg with | some (i, v) => s.regs.set i v | none => s.regs
    mem := match e.mem with | some (a, v) => s.mem.write a v | none => s.mem
    output := match e.out with | some t => s.output ++ [t] | none => s.output
    run := if e.halt then .halting else s.run
    pc := e.nextPc + 1 }

/-- The end of an instruction: a raised fault is taken and nothing is committed; otherwise the pc increment is checked
(10_state.md R26, last in the priority of 60_exceptions.md R230) and the effect committed. -/
def State.finish (s : State) (r : Except Raised Effect) : Result :=
  match r with
  | .error f => .next (s.takeFault f)
  | .ok e =>
    if s.maxWord < e.nextPc + 1 then
      .next (s.takeFault { kind := .pc, info := (e.nextPc + 1) % s.modulus })
    else .next (s.commit e)

/-! ### Enabling, fetch and the end of a run (40_cycle.md) -/

/-- When a step is enabled (40_cycle.md R120). -/
def State.enabled (s : State) : Bool :=
  s.run == .running && !s.fault.valid && decide (s.pc < s.rom.length)

/-- The end of a run (40_cycle.md R128), which is also the status output `ended` (10_state.md R42). -/
def State.ended (s : State) : Bool :=
  s.fault.valid || s.run == .halting || decide (s.rom.length ≤ s.pc)

/-- Fetch: the word at `ROM[pc]` when the step is enabled (40_cycle.md R120); none when it is not. -/
def State.fetch (s : State) : Option InsnWord := if s.enabled then s.rom[s.pc]? else none

/-- A fetched word that does not decode raises UnknownOpcode with the opcode byte (30_encoding.md R84, 40_cycle.md
R120). The word is complete, so the decoder rejects it for its opcode alone. -/
def State.rejectWord (s : State) (w : InsnWord) : Result :=
  .next (s.takeFault { kind := .unknownOpcode, info := (opcodeByte w).toNat })

/-- The state in which the next fetch gives `w`: `w` stands at ROM index pc, the run state is Running and no fault is
latched. A ROM that ends before pc is filled up with words of zero (notes/assumptions/12.md). -/
def State.placeWord (s : State) (w : InsnWord) : State :=
  { s with
    rom := s.rom.take s.pc ++ List.replicate (s.pc - s.rom.length) 0#32 ++ w :: s.rom.drop (s.pc + 1)
    run := .running
    fault := { s.fault with valid := false } }

end Sys2Proof.Machine
end

