-- ==== Sys2Proof/Machine/Operands.lean ====
section
/-!
DEFINITION. Operand resolution (30_encoding.md R73 to R79), and the common form of an instruction: resolve all three
operand bytes, then run the opcode's rule (40_cycle.md R120).
-/

namespace Sys2Proof.Machine

/-- The register number of a register operand: always in range (10_state.md R22). -/
def regOfField (r : BitVec 4) : RegIndex := ⟨r.toNat, r.isLt⟩

/-- `pc + value`, or OutOfBounds(Operand) when the sum does not fit (30_encoding.md R76). -/
def State.offset (s : State) (value : Nat) : Except Raised Nat :=
  if s.maxWord < s.pc + value then .error { kind := .operand, info := (s.pc + value) % s.modulus }
  else .ok (s.pc + value)

/-- `resolve(b)` of 30_encoding.md R76, on the state before the instruction (40_cycle.md R123). -/
def State.resolve (s : State) : Operand → Except Raised Nat
  | .imm v => .ok v.toNat
  | .off v => s.offset v.toNat
  | .reg _ r => .ok (s.readReg (regOfField r))
  | .narrow v => .ok v.toNat

/-- The three resolved operand values `vd`, `v1`, `v2` (00_scope.md R12). -/
structure Resolved where
  vd : Nat
  v1 : Nat
  v2 : Nat
deriving DecidableEq, Repr

/-- All three operand bytes are resolved for every opcode, in the order `dest`, `op1`, `op2`, and the first fault is
the one reported (30_encoding.md R77, 40_cycle.md R122). -/
def State.resolveAll (s : State) (dest op1 op2 : Operand) : Except Raised Resolved := do
  let vd ← s.resolve dest
  let v1 ← s.resolve op1
  let v2 ← s.resolve op2
  pure { vd, v1, v2 }

/-- An instruction that does not touch the console: resolution, the opcode's rule, the commit (40_cycle.md R120). -/
def State.perform (s : State) (dest op1 op2 : Operand) (rule : Resolved → Except Raised Effect) : Result :=
  s.finish (s.resolveAll dest op1 op2 >>= rule)

end Sys2Proof.Machine
end

