-- ==== Sys2Proof/Machine/Flags.lean ====
section
/-!
DEFINITION. The block has no flags and no condition codes (10_state.md R27). What stands in their place is here: the
0 or 1 that a comparison writes into a general register (44_compare.md R190) and the range rule that decides between
a result and an overflow fault (43_arith.md R170).
-/

namespace Sys2Proof.Machine

/-- `bool01(c)` of 00_scope.md R10. -/
def bool01 (c : Bool) : Nat := if c then 1 else 0

/-- `fit(r)` of 43_arith.md R170: the exact result when it is a word, else what OVERFLOW_POLICY says. -/
def State.fit (s : State) (r : Int) : Except Raised Nat :=
  if 0 ≤ r ∧ r ≤ (s.maxWord : Int) then .ok r.toNat
  else
    match s.cfg.overflow with
    | .fault => .error { kind := .overflow, info := 0 }
    | .wrap => .ok (r % (s.modulus : Int)).toNat

end Sys2Proof.Machine
end

