-- ==== Sys2Proof/Machine/Arith.lean ====
section
/-!
DEFINITION. Arithmetic, group 0x2 (43_arith.md). The ALU's own fault comes first, then the destination check, then
the write (43_arith.md R170).
-/

namespace Sys2Proof.Machine

/-- The common end of the ALU instructions: `checkReg(vd)`, then `x[vd] <- r` (43_arith.md R170, 44_compare.md R190). -/
def State.writeResult (s : State) (vd : Nat) (r : Nat) : Except Raised Effect := do
  let d ← checkReg vd
  pure { nextPc := s.pc, reg := some (d, r) }

/-- The quotient rule of 43_arith.md R174: floor, or ArithmeticFault(DivByZero). -/
def quotient (v1 v2 : Nat) : Except Raised Nat :=
  if v2 = 0 then .error { kind := .divByZero, info := 0 } else .ok (v1 / v2)

/-- The remainder rule of 43_arith.md R175, or ArithmeticFault(ModByZero). -/
def remainder (v1 v2 : Nat) : Except Raised Nat :=
  if v2 = 0 then .error { kind := .modByZero, info := 0 } else .ok (v1 - v2 * (v1 / v2))

/-- `add` (43_arith.md R171). -/
def execAdd (dest op1 op2 : Operand) (s : State) : Result :=
  s.perform dest op1 op2 fun v => do
    let r ← s.fit ((v.v1 : Int) + v.v2)
    s.writeResult v.vd r

/-- `sub` (43_arith.md R172). -/
def execSub (dest op1 op2 : Operand) (s : State) : Result :=
  s.perform dest op1 op2 fun v => do
    let r ← s.fit ((v.v1 : Int) - v.v2)
    s.writeResult v.vd r

/-- `mul` (43_arith.md R173). -/
def execMul (dest op1 op2 : Operand) (s : State) : Result :=
  s.perform dest op1 op2 fun v => do
    let r ← s.fit ((v.v1 : Int) * v.v2)
    s.writeResult v.vd r

/-- `div` (43_arith.md R174). -/
def execDiv (dest op1 op2 : Operand) (s : State) : Result :=
  s.perform dest op1 op2 fun v => do
    let r ← quotient v.v1 v.v2
    s.writeResult v.vd r

/-- `mod` (43_arith.md R175). -/
def execMod (dest op1 op2 : Operand) (s : State) : Result :=
  s.perform dest op1 op2 fun v => do
    let r ← remainder v.v1 v.v2
    s.writeResult v.vd r

end Sys2Proof.Machine
end

