-- ==== Sys2Proof/Machine/Branch.lean ====
section
/-!
DEFINITION. Conditional branches, group 0x1 (42_branch.md). The cycle's increment applies after the branch
(10_state.md R25, 70_reset_and_hazards.md R257).
-/

namespace Sys2Proof.Machine

/-- The pc result of a taken branch by `vd` (42_branch.md R160): backward when `v2` is 0, with OutOfBounds(Pc, vd) when
the displacement exceeds the pc; else forward. -/
def State.branchTarget (s : State) (vd v2 : Nat) : Except Raised Nat :=
  if v2 = 0 then
    if s.pc < vd then .error { kind := .pc, info := vd } else .ok (s.pc - vd)
  else .ok (s.pc + vd)

/-- A branch taken when `taken` holds. -/
def State.branch (s : State) (taken : Bool) (v : Resolved) : Except Raised Effect := do
  let target ← if taken then s.branchTarget v.vd v.v2 else pure s.pc
  pure { nextPc := target }

/-- `jpt` (42_branch.md R160): taken when the condition `v1` is not 0. -/
def execJpt (dest op1 op2 : Operand) (s : State) : Result :=
  s.perform dest op1 op2 fun v => s.branch (v.v1 != 0) v

/-- `jpf` (42_branch.md R161): taken when the condition `v1` is 0. -/
def execJpf (dest op1 op2 : Operand) (s : State) : Result :=
  s.perform dest op1 op2 fun v => s.branch (v.v1 == 0) v

end Sys2Proof.Machine
end

