-- ==== Sys2Proof/Machine/Compare.lean ====
section
/-!
DEFINITION. Comparisons, group 0x3 (44_compare.md): unsigned, the result 1 or 0 in a general register.
-/

namespace Sys2Proof.Machine

/-- `eql` (44_compare.md R191). -/
def execEql (dest op1 op2 : Operand) (s : State) : Result :=
  s.perform dest op1 op2 fun v => s.writeResult v.vd (bool01 (decide (v.v1 = v.v2)))

/-- `neq` (44_compare.md R192). -/
def execNeq (dest op1 op2 : Operand) (s : State) : Result :=
  s.perform dest op1 op2 fun v => s.writeResult v.vd (bool01 (decide (v.v1 ≠ v.v2)))

/-- `let` (44_compare.md R193), strictly less than. -/
def execLet (dest op1 op2 : Operand) (s : State) : Result :=
  s.perform dest op1 op2 fun v => s.writeResult v.vd (bool01 (decide (v.v1 < v.v2)))

/-- `leq` (44_compare.md R194). -/
def execLeq (dest op1 op2 : Operand) (s : State) : Result :=
  s.perform dest op1 op2 fun v => s.writeResult v.vd (bool01 (decide (v.v1 ≤ v.v2)))

/-- `grt` (44_compare.md R195), strictly greater than. -/
def execGrt (dest op1 op2 : Operand) (s : State) : Result :=
  s.perform dest op1 op2 fun v => s.writeResult v.vd (bool01 (decide (v.v2 < v.v1)))

/-- `geq` (44_compare.md R196). -/
def execGeq (dest op1 op2 : Operand) (s : State) : Result :=
  s.perform dest op1 op2 fun v => s.writeResult v.vd (bool01 (decide (v.v2 ≤ v.v1)))

end Sys2Proof.Machine
end

