-- ==== Sys2Proof/Machine/Console.lean ====
section
/-!
DEFINITION. Console input and output, group 0x5 (45_io.md). The destination is checked before the console is asked;
an instruction whose request the host has not answered yet blocks: the state stays as it is (45_io.md R210,
20_memory.md R64; notes/assumptions/8.md).
-/

namespace Sys2Proof.Machine

/-- Resolution and `checkReg(vd)`, which both console instructions do before they ask the host (45_io.md R210, R211). -/
def State.consoleReg (s : State) (dest op1 op2 : Operand) : Except Raised RegIndex := do
  let v ← s.resolveAll dest op1 op2
  checkReg v.vd

/-- `ReadLine()`: the next answer of the input channel and the state in which it is consumed, or none while the host
has not answered (45_io.md R212). -/
def State.readLine (s : State) : Option (LineAnswer × State) :=
  match s.lines with
  | [] => none
  | answer :: rest => some (answer, { s with lines := rest })

/-- The host's answer to `WriteText` and the state in which it is used, or none while the host has not answered
(45_io.md R212). -/
def State.writeAnswer (s : State) : Option (WriteAnswer × State) :=
  match s.acks with
  | [] => none
  | answer :: rest => some (answer, { s with acks := rest })

/-- The number `sti` reads from an answer: IOFailure(Read) on fail, IOFailure(Parse) on a line that is no number
(45_io.md R210). -/
def State.numberFrom (s : State) : LineAnswer → Except Raised Nat
  | .fail => .error { kind := .read, info := 0 }
  | .line text =>
    match parseUnsigned s.maxWord text with
    | some n => .ok n
    | none => .error { kind := .parse, info := 0 }

/-- `sti` (45_io.md R210). A line that was read stays consumed even if the instruction then faults (40_cycle.md R121;
notes/assumptions/9.md). -/
def execSti (dest op1 op2 : Operand) (s : State) : Result :=
  match s.consoleReg dest op1 op2 with
  | .error f => .next (s.takeFault f)
  | .ok d =>
    match s.readLine with
    | none => .next s
    | some (answer, s₁) => s₁.finish do
        let n ← s.numberFrom answer
        pure { nextPc := s.pc, reg := some (d, n) }

/-- `sto` (45_io.md R211): the decimal text of the register, with no newline. On a failed write nothing is emitted
(60_exceptions.md R226; notes/assumptions/10.md). -/
def execSto (dest op1 op2 : Operand) (s : State) : Result :=
  match s.consoleReg dest op1 op2 with
  | .error f => .next (s.takeFault f)
  | .ok d =>
    match s.writeAnswer with
    | none => .next s
    | some (.ok, s₁) => s₁.finish (.ok { nextPc := s.pc, out := some (decimal (s.readReg d)) })
    | some (.fail, s₁) => s₁.finish (.error { kind := .write, info := 0 })

end Sys2Proof.Machine
end

