-- ==== Sys2Proof/Machine/Move.lean ====
section
/-!
DEFINITION. Halt and data movement, group 0x0 (41_move.md).
-/

namespace Sys2Proof.Machine

/-- `hlt` (41_move.md R140): the run state becomes Halting; the pc increment applies. -/
def execHlt (dest op1 op2 : Operand) (s : State) : Result :=
  s.perform dest op1 op2 fun _ => pure { nextPc := s.pc, halt := true }

/-- `ldr` (41_move.md R141): the data address is checked first, then the destination index. -/
def execLdr (dest op1 op2 : Operand) (s : State) : Result :=
  s.perform dest op1 op2 fun v => do
    let a ← s.checkMem v.v1
    let d ← checkReg v.vd
    pure { nextPc := s.pc, reg := some (d, s.memRead a) }

/-- `str` (41_move.md R142): the source index is checked first, then the data address. -/
def execStr (dest op1 op2 : Operand) (s : State) : Result :=
  s.perform dest op1 op2 fun v => do
    let r ← checkReg v.v1
    let a ← s.checkMem v.vd
    pure { nextPc := s.pc, mem := some (a, s.readReg r) }

/-- `set` (41_move.md R143). -/
def execSet (dest op1 op2 : Operand) (s : State) : Result :=
  s.perform dest op1 op2 fun v => do
    let d ← checkReg v.vd
    pure { nextPc := s.pc, reg := some (d, v.v1) }

/-- `cpy` (41_move.md R144): the source index is checked first, then the destination index. -/
def execCpy (dest op1 op2 : Operand) (s : State) : Result :=
  s.perform dest op1 op2 fun v => do
    let r ← checkReg v.v1
    let d ← checkReg v.vd
    pure { nextPc := s.pc, reg := some (d, s.readReg r) }

end Sys2Proof.Machine
end

