-- ==== Sys2Proof/Machine/Dispatch.lean ====
section
/-!
DEFINITION. The dispatch from an instruction to its meaning, one arm per row of opcode_table.json.
-/

namespace Sys2Proof.Machine

def exec (i : Instr) (s : State) : Host.Outcome State Fault Refusal :=
  match i with
  | .hlt dest op1 op2 => Sys2Proof.Machine.execHlt dest op1 op2 s
  | .ldr dest op1 op2 => Sys2Proof.Machine.execLdr dest op1 op2 s
  | .str dest op1 op2 => Sys2Proof.Machine.execStr dest op1 op2 s
  | .set dest op1 op2 => Sys2Proof.Machine.execSet dest op1 op2 s
  | .cpy dest op1 op2 => Sys2Proof.Machine.execCpy dest op1 op2 s
  | .jpt dest op1 op2 => Sys2Proof.Machine.execJpt dest op1 op2 s
  | .jpf dest op1 op2 => Sys2Proof.Machine.execJpf dest op1 op2 s
  | .add dest op1 op2 => Sys2Proof.Machine.execAdd dest op1 op2 s
  | .sub dest op1 op2 => Sys2Proof.Machine.execSub dest op1 op2 s
  | .mul dest op1 op2 => Sys2Proof.Machine.execMul dest op1 op2 s
  | .div dest op1 op2 => Sys2Proof.Machine.execDiv dest op1 op2 s
  | .mod dest op1 op2 => Sys2Proof.Machine.execMod dest op1 op2 s
  | .eql dest op1 op2 => Sys2Proof.Machine.execEql dest op1 op2 s
  | .neq dest op1 op2 => Sys2Proof.Machine.execNeq dest op1 op2 s
  | .let_ dest op1 op2 => Sys2Proof.Machine.execLet dest op1 op2 s
  | .leq dest op1 op2 => Sys2Proof.Machine.execLeq dest op1 op2 s
  | .grt dest op1 op2 => Sys2Proof.Machine.execGrt dest op1 op2 s
  | .geq dest op1 op2 => Sys2Proof.Machine.execGeq dest op1 op2 s
  | .sti dest op1 op2 => Sys2Proof.Machine.execSti dest op1 op2 s
  | .sto dest op1 op2 => Sys2Proof.Machine.execSto dest op1 op2 s

end Sys2Proof.Machine
end

