-- ==== Sys2Proof/Machine/Step.lean ====
section
/-!
DEFINITION. One step of the block (40_cycle.md R120): the host's `step()`, which executes exactly one instruction when
a step is enabled and otherwise does nothing (40_cycle.md R130; notes/assumptions/5.md).
-/

namespace Sys2Proof.Machine

/-- One step: fetch, decode, execute; an unknown opcode is rejected before its operands are looked at (40_cycle.md
R120, R122). When no step is enabled nothing happens (R130). -/
def step (s : State) : Host.Outcome State Fault Refusal :=
  match s.fetch with
  | none => .next s
  | some w =>
    match decodeWord w with
    | .ok i => exec i s
    | .error _ => s.rejectWord w

/-- The state whose very next step runs the instruction with the bits `w` of a table row of `nbits` bits: it stands for
the host's load and run (notes/assumptions/12.md). -/
def State.withFetchWord (s : State) (nbits w : Nat) : State := s.placeWord (BitVec.ofNat 32 (w % 2 ^ nbits))

end Sys2Proof.Machine
end

