-- ==== Sys2Proof/Machine/Control.lean ====
section
/-!
DEFINITION. The decoder's control outputs (30_encoding.md R87): the table of signals each opcode drives to the
execution unit. The table adds no behaviour; the meanings do not use it.
-/

namespace Sys2Proof.Machine

/-- The class of an opcode, signal `cls`. -/
inductive ControlClass where
  | sys
  | load
  | store
  | move
  | branch
  | alu
  | cmp
  | input
  | output
deriving DecidableEq, Repr

/-- The ALU function, signal `alu_fn`. -/
inductive AluFn where
  | pass1
  | passR
  | nz
  | z
  | add
  | sub
  | mul
  | div
  | mod
  | eq
  | ne
  | lt
  | le
  | gt
  | ge
deriving DecidableEq, Repr

/-- Which resolved value indexes the register file's indexed read, signal `rf_rd_idx`. -/
inductive IndexedRead where
  | v1
  | vd
deriving DecidableEq, Repr

/-- The console direction, signal `io`. -/
inductive IoDirection where
  | input
  | output
deriving DecidableEq, Repr

/-- One row of the control table; an absent signal is `-` there. -/
structure Controls where
  cls : ControlClass
  aluFn : Option AluFn := none
  rfWe : Bool := false
  rfRdIdx : Option IndexedRead := none
  memRe : Bool := false
  memWe : Bool := false
  br : Bool := false
  io : Option IoDirection := none
  halt : Bool := false
deriving DecidableEq, Repr

/-- The control signals of an opcode (30_encoding.md R87). -/
def controls : Opcode → Controls
  | .hlt => { cls := .sys, halt := true }
  | .ldr => { cls := .load, rfWe := true, memRe := true }
  | .str => { cls := .store, rfRdIdx := some .v1, memWe := true }
  | .set => { cls := .move, aluFn := some .pass1, rfWe := true }
  | .cpy => { cls := .move, aluFn := some .passR, rfWe := true, rfRdIdx := some .v1 }
  | .jpt => { cls := .branch, aluFn := some .nz, br := true }
  | .jpf => { cls := .branch, aluFn := some .z, br := true }
  | .add => { cls := .alu, aluFn := some .add, rfWe := true }
  | .sub => { cls := .alu, aluFn := some .sub, rfWe := true }
  | .mul => { cls := .alu, aluFn := some .mul, rfWe := true }
  | .div => { cls := .alu, aluFn := some .div, rfWe := true }
  | .mod => { cls := .alu, aluFn := some .mod, rfWe := true }
  | .eql => { cls := .cmp, aluFn := some .eq, rfWe := true }
  | .neq => { cls := .cmp, aluFn := some .ne, rfWe := true }
  | .let_ => { cls := .cmp, aluFn := some .lt, rfWe := true }
  | .leq => { cls := .cmp, aluFn := some .le, rfWe := true }
  | .grt => { cls := .cmp, aluFn := some .gt, rfWe := true }
  | .geq => { cls := .cmp, aluFn := some .ge, rfWe := true }
  | .sti => { cls := .input, rfWe := true, io := some .input }
  | .sto => { cls := .output, rfRdIdx := some .vd, io := some .output }

/-- The code of an ALU function within its group, for the groups 0x2 and 0x3; none for the others (30_encoding.md
R87). -/
def AluFn.code : AluFn → Option (BitVec 4)
  | .add | .eq => some 0
  | .sub | .ne => some 1
  | .mul | .lt => some 2
  | .div | .le => some 3
  | .mod | .gt => some 4
  | .ge => some 5
  | .pass1 | .passR | .nz | .z => none

/-- The control outputs for an opcode byte; an unknown opcode drives none (30_encoding.md R87). -/
def controlsOfByte (b : Byte) : Option Controls := (decodeOp b).map controls

end Sys2Proof.Machine
end

