-- ==== Sys2Proof/Machine/Assembler.lean ====
section
/-!
DEFINITION. The assembler's line grammar and operand encoding (30_encoding.md R90 to R100): toolchain software outside
the block, in scope as syntax only (00_scope.md R6). A parse step answers what it read and the rest of the text, or
fails with the unconsumed remainder (R98).
-/

namespace Sys2Proof.Machine

/-- The mnemonic of an opcode, case-sensitive (30_encoding.md R82, R94). -/
def mnemonic : Opcode → Text
  | .hlt => ['h', 'l', 't']
  | .ldr => ['l', 'd', 'r']
  | .str => ['s', 't', 'r']
  | .set => ['s', 'e', 't']
  | .cpy => ['c', 'p', 'y']
  | .jpt => ['j', 'p', 't']
  | .jpf => ['j', 'p', 'f']
  | .add => ['a', 'd', 'd']
  | .sub => ['s', 'u', 'b']
  | .mul => ['m', 'u', 'l']
  | .div => ['d', 'i', 'v']
  | .mod => ['m', 'o', 'd']
  | .eql => ['e', 'q', 'l']
  | .neq => ['n', 'e', 'q']
  | .let_ => ['l', 'e', 't']
  | .leq => ['l', 'e', 'q']
  | .grt => ['g', 'r', 't']
  | .geq => ['g', 'e', 'q']
  | .sti => ['s', 't', 'i']
  | .sto => ['s', 't', 'o']

/-- The twenty opcodes, in the order of the opcode map (30_encoding.md R82). -/
def allOpcodes : List Opcode :=
  [.hlt, .ldr, .str, .set, .cpy, .jpt, .jpf, .add, .sub, .mul, .div, .mod] ++
    [.eql, .neq, .let_, .leq, .grt, .geq, .sti, .sto]

/-- The opcode whose mnemonic `t` begins with, and the text after it (30_encoding.md R94). -/
def parseMnemonic (t : Text) : Except Text (Opcode × Text) :=
  match allOpcodes.find? (fun o => (mnemonic o).isPrefixOf t) with
  | some o => .ok (o, t.drop (mnemonic o).length)
  | none => .error t

/-- `WS`: exactly one space U+0020 (30_encoding.md R91). -/
def parseSpace : Text → Except Text Text
  | ' ' :: rest => .ok rest
  | t => .error t

/-- The byte of an operand: the mode flag OR the number, with no range check, so that a number wider than the mode's
value corrupts the mode (30_encoding.md R92, R93). -/
def operandByte (flag : Byte) (n : Nat) : Byte := flag ||| BitVec.ofNat 8 n

/-- The mode flag of a suffix (30_encoding.md R92): `i` 0x80, `r` 0x10, `o` 0x40; a missing suffix means `i`. -/
def parseSuffix : Text → Byte × Text
  | 'i' :: rest => (0x80#8, rest)
  | 'r' :: rest => (0x10#8, rest)
  | 'o' :: rest => (0x40#8, rest)
  | rest => (0x80#8, rest)

/-- `operand := digits mode_suffix?` (30_encoding.md R91): one or more ASCII digits; a value above 255 is malformed
(R92). -/
def parseOperand (t : Text) : Except Text (Byte × Text) :=
  let digits := t.takeWhile isAsciiDigit
  if digits.isEmpty then .error t
  else if 255 < numberOf digits then .error t
  else
    let suffix := parseSuffix (t.dropWhile isAsciiDigit)
    .ok (operandByte suffix.1 (numberOf digits), suffix.2)

/-- The optional third operand and the end of the line: an omitted `op2` is the byte 0x00, and nothing may follow the
last operand (30_encoding.md R91, R96). -/
def parseOp2 (t : Text) : Except Text Byte :=
  if t.isEmpty then .ok 0x00#8
  else do
    let t₁ ← parseSpace t
    let (b, t₂) ← parseOperand t₁
    if t₂.isEmpty then pure b else .error t₂

/-- One trimmed line that is not blank. A line that begins with `hlt` is 0x00000000 whatever follows (30_encoding.md
R95); every other mnemonic takes two operands and an optional third (R91, R96). -/
def assembleTrimmed (t : Text) : Except Text InsnWord := do
  let (o, t₁) ← parseMnemonic t
  if o = .hlt then pure 0x00000000#32
  else do
    let t₂ ← parseSpace t₁
    let (dest, t₃) ← parseOperand t₂
    let t₄ ← parseSpace t₃
    let (op1, t₅) ← parseOperand t₄
    let op2 ← parseOp2 t₅
    pure (packWord o.code dest op1 op2)

/-- One line of assembly text, trimmed first (30_encoding.md R90). -/
def assembleLine (line : Text) : Except Text InsnWord := assembleTrimmed (trim line)

/-- GrammarMismatch (30_encoding.md R98): the failing line and column, counted from 1, and the unconsumed remainder
(DESIGN CHOICE for the counting: notes/assumptions/14.md). -/
structure GrammarMismatch where
  line : Nat
  column : Nat
  remainder : Text
deriving DecidableEq, Repr

/-- The lines of a text, ended by U+000A; a carriage return before it is white space and is trimmed
(notes/assumptions/14.md). -/
def splitLines : Text → List Text
  | [] => [[]]
  | c :: rest =>
    if c = '\n' then [] :: splitLines rest
    else
      match splitLines rest with
      | [] => [[c]]
      | l :: ls => (c :: l) :: ls

/-- The column of the remainder of a line, counted from 1 in the untrimmed line. -/
def columnOf (line remainder : Text) : Nat :=
  (line.takeWhile isWhite).length + ((trim line).length - remainder.length) + 1

/-- The results of the lines of a program, the first of which is line `n`: blank lines make no instruction and are not
counted as one (30_encoding.md R90). -/
def assembleFrom : Nat → List Text → List (Except GrammarMismatch InsnWord)
  | _, [] => []
  | n, line :: rest =>
    if (trim line).isEmpty then assembleFrom (n + 1) rest
    else
      (match assembleLine line with
        | .ok w => .ok w
        | .error r => .error { line := n, column := columnOf line r, remainder := r }) :: assembleFrom (n + 1) rest

/-- The words of a list of results, or all its errors. R98 allows more than one error per program and does not require
it: that every one is reported is a DESIGN CHOICE (notes/assumptions/14.md). -/
def collect : List (Except GrammarMismatch InsnWord) → Except (List GrammarMismatch) (List InsnWord)
  | [] => .ok []
  | .ok w :: rest =>
    match collect rest with
    | .ok ws => .ok (w :: ws)
    | .error es => .error es
  | .error e :: rest =>
    match collect rest with
    | .ok _ => .error [e]
    | .error es => .error (e :: es)

/-- Assemble a program: its instruction words, or every GrammarMismatch in it (30_encoding.md R90, R98; that every one is
reported is a DESIGN CHOICE, notes/assumptions/14.md). -/
def assemble (program : Text) : Except (List GrammarMismatch) (List InsnWord) :=
  collect (assembleFrom 1 (splitLines program))

end Sys2Proof.Machine
end

