-- ==== Sys2Proof/Machine/Disassembler.lean ====
section
/-!
DEFINITION. The disassembler's text form (30_encoding.md R105 to R107): toolchain software outside the block, in scope
as syntax only (00_scope.md R6). It never fails.
-/

namespace Sys2Proof.Machine

/-- The text of an operand byte: its value in decimal and the mode's suffix; both immediate forms render `i`
(30_encoding.md R106). -/
def renderOperand (b : Byte) : Text :=
  match decodeOperand b with
  | .imm v => decimal v.toNat ++ ['i']
  | .off v => decimal v.toNat ++ ['o']
  | .reg _ r => decimal r.toNat ++ ['r']
  | .narrow v => decimal v.toNat ++ ['i']

/-- The sentinel text of an unknown opcode (30_encoding.md R105). -/
def sentinel : Text := ['i', 'n', 'v', 'a', 'l', 'i', 'd']

/-- The operands of a line: `dest`, `op1`, and `op2` unless it is 0x00, each after one space (30_encoding.md R107). -/
def renderOperands (w : InsnWord) : Text :=
  [' '] ++ renderOperand (destByte w) ++ [' '] ++ renderOperand (op1Byte w) ++
    (if op2Byte w = 0x00#8 then [] else [' '] ++ renderOperand (op2Byte w))

/-- The text of an instruction word (30_encoding.md R105, R107): `hlt` alone, whatever its operand bytes. -/
def disassemble (w : InsnWord) : Text :=
  match decodeOp (opcodeByte w) with
  | some .hlt => mnemonic .hlt
  | some o => mnemonic o ++ renderOperands w
  | none => sentinel ++ renderOperands w

end Sys2Proof.Machine
end

