-- ==== Sys2Proof/Machine/HostPort.lean ====
section
/-!
DEFINITION. The host's side of the block: construct, load, run and step (10_state.md R40, 70_reset_and_hazards.md
R250 to R254, 40_cycle.md R125 to R130), the console requests and answers (10_state.md R41), and the status outputs
(R42; `ended` is State.ended of Machine/Ops.lean).
-/

namespace Sys2Proof.Machine

/-! ### Construction and load -/

/-- `construct()` (10_state.md R40): every state element gets its construction value; the parameters stay. The console
channels of a used block are emptied (DESIGN CHOICE, unsafe: notes/assumptions/16.md). The counter of free values goes
on, so that no free value is drawn twice (notes/assumptions/7.md). -/
def State.construct (s : State) : State := { State.constructWith s.cfg with draws := s.draws }

/-- Why a load is refused; nothing changes then (70_reset_and_hazards.md R252). -/
inductive LoadRefusal where
  /-- A raw byte program whose length is not a multiple of 4. -/
  | partialInstruction
  /-- More than 2^WORD_BITS instructions. -/
  | tooLong
deriving DecidableEq, Repr

/-- `load(words)` (70_reset_and_hazards.md R252): the ROM is replaced, the pc is 0, the run state Suspended and the
fault latch cleared; registers, data memory and the console channels stay. That the console channels stay is the model's
choice (DESIGN CHOICE, unsafe: notes/assumptions/16.md). Opcodes are not checked (D29). -/
def State.load (s : State) (words : List InsnWord) : Except LoadRefusal State :=
  if s.modulus < words.length then .error .tooLong
  else .ok { s.clearFault with rom := words, pc := 0, run := .suspended }

/-- `load` of a raw byte program, read 4 bytes at a time, big-endian (70_reset_and_hazards.md R252, 20_memory.md R53,
R55). -/
def State.loadBytes (s : State) (bytes : List Byte) : Except LoadRefusal State :=
  match packProgram bytes with
  | some words => s.load words
  | none => .error .partialInstruction

/-! ### Run (40_cycle.md R125 to R130) -/

/-- The first half of `run()`: the run state becomes Running, from Suspended and from Halting alike, unless a fault is
latched (40_cycle.md R125, 60_exceptions.md R239). -/
def State.startRun (s : State) : State := if s.fault.valid then s else { s with run := .running }

/-- What `run()` returns (10_state.md R40). -/
inductive RunReturn where
  | ok
  | fault (latch : FaultLatch)
deriving DecidableEq, Repr

/-- The return value of a run that has ended (10_state.md R40, 60_exceptions.md R227). -/
def State.runReturn (s : State) : RunReturn := if s.fault.valid then .fault s.fault else .ok

/-- Which end of a run a state is at (40_cycle.md R126). -/
inductive RunEnd where
  | halted
  | exhausted
  | faulted
deriving DecidableEq, Repr

/-- The end of a run, by kind: a latched fault, `hlt`, or, while Running, a pc at or beyond the end of the ROM
(40_cycle.md R126). A Suspended block is at no run's end, whatever its pc (R128). -/
def State.runEnd (s : State) : Option RunEnd :=
  if s.fault.valid then some .faulted
  else
    match s.run with
    | .halting => some .halted
    | .running => if s.rom.length ≤ s.pc then some .exhausted else none
    | .suspended => none

/-- Steps until the end of the run, at most `fuel`; none means that no end was reached (40_cycle.md R125, R129). -/
def State.runLoop : Nat → State → Option State
  | 0, s => if s.ended then some s else none
  | fuel + 1, s =>
    if s.ended then some s
    else
      match step s with
      | .next t => State.runLoop fuel t
      | .fault _ => none
      | .refused _ => none

/-- `run()` under `fuel` (40_cycle.md R125): with a fault latched it executes nothing and returns the latched fault. -/
def State.runBlock (s : State) (fuel : Nat) : Option (State × RunReturn) :=
  match State.runLoop fuel s.startRun with
  | some t => some (t, t.runReturn)
  | none => none

/-! ### The console port (10_state.md R41) -/

/-- A request of the block to the host. -/
inductive ConsoleRequest where
  | readLine
  | writeText (text : Text)
deriving DecidableEq, Repr

/-- The request an instruction makes, when it is a console instruction whose operands and destination are legal. -/
def State.requestOf (s : State) : Instr → Option ConsoleRequest
  | .sti dest op1 op2 =>
    match s.consoleReg dest op1 op2 with
    | .ok _ => some .readLine
    | .error _ => none
  | .sto dest op1 op2 =>
    match s.consoleReg dest op1 op2 with
    | .ok d => some (.writeText (decimal (s.readReg d)))
    | .error _ => none
  | _ => none

/-- The request the block makes in its next step (10_state.md R41). -/
def State.request (s : State) : Option ConsoleRequest :=
  match s.fetch with
  | none => none
  | some w =>
    match decodeWord w with
    | .ok i => s.requestOf i
    | .error _ => none

/-- The block waits for the host: its request has no answer yet (45_io.md R210, 60_exceptions.md R239). -/
def State.blocked (s : State) : Bool :=
  match s.request with
  | some .readLine => s.lines.isEmpty
  | some (.writeText _) => s.acks.isEmpty
  | none => false

/-- The host answers a `ReadLine()`. -/
def State.answerRead (s : State) (answer : LineAnswer) : State := { s with lines := s.lines ++ [answer] }

/-- The host answers a `WriteText`. -/
def State.answerWrite (s : State) (answer : WriteAnswer) : State := { s with acks := s.acks ++ [answer] }

end Sys2Proof.Machine
end

