-- ==== Sys2Proof/Safety.lean ====
section
/-!
DEFINITION. The invariant of the block and what counts as a safe run, in the terms the statements use.
-/

namespace Sys2Proof.Machine

/-- The words of the register file are words (00_scope.md R10). -/
def State.regsInRange (s : State) : Bool := s.regs.toList.all fun v => decide (v ≤ s.maxWord)

/-- The codes the latch may hold (60_exceptions.md R220). -/
def legalCodes (cause sub : Nat) : Bool :=
  (cause == 1 && sub == 0) || (cause == 2 && decide (sub ≤ 2)) || (cause == 3 && decide (sub ≤ 3)) ||
    (cause == 4 && decide (sub ≤ 2))

/-- What a valid latch says (60_exceptions.md R225, R226): a legal cause, the pc where the block stands and the word
there, an `info` that is a word, and a run state that is still Running (10_state.md R30). -/
structure FaultLatch.describes (l : FaultLatch) (s : State) : Prop where
  codes : legalCodes l.cause l.sub = true
  pc : l.fpc = s.pc
  word : s.rom[s.pc]? = some l.fword
  info : l.info ≤ s.maxWord
  running : s.run = .running

/-- The invariant of the block. A word is wide enough for every immediate and for an opcode byte, at least 8 bits
(DEDUCED: notes/assumptions/2.md); every word is below 2^WORD_BITS (00_scope.md R10); the ROM is no longer than R8
allows; memory has its canonical form and lists only existing words; a valid fault latch describes the fault. -/
structure State.Inv (s : State) : Prop where
  width : 8 ≤ s.cfg.wordBits
  regs : s.regsInRange = true
  pc : s.pc ≤ s.maxWord
  rom : s.rom.length ≤ s.modulus
  memForm : s.mem.wf = true
  memRange : s.mem.inRange s.cfg.memWords s.maxWord = true
  latch : s.fault.valid = true → s.fault.describes s

/-- No fault is latched: what a safe run keeps (60_exceptions.md R227). -/
def State.safe (s : State) : Bool := !s.fault.valid

/-- The first `n` steps from a state all answer a next state without a latched fault. -/
def State.safeFor : Nat → State → Bool
  | 0, s => s.safe
  | n + 1, s =>
    s.safe &&
      match step s with
      | .next t => State.safeFor n t
      | .fault _ => false
      | .refused _ => false

/-- The three operands of an instruction resolve to `vd`, `v1`, `v2` (30_encoding.md R77, 00_scope.md R12). -/
structure State.ResolvesTo (s : State) (dest op1 op2 : Operand) (vd v1 v2 : Nat) : Prop where
  dest : s.resolve dest = .ok vd
  op1 : s.resolve op1 = .ok v1
  op2 : s.resolve op2 = .ok v2

/-- The state in which the latch holds the fault with the codes `cause` and `sub`, and nothing else has changed
(60_exceptions.md R225, R226). -/
def State.latching (s : State) (cause sub : Nat) (info : Nat) : State :=
  { s with
    fault := { valid := true, cause := cause, sub := sub, fpc := s.pc, fword := s.currentWord, info := info } }

/-- The next step is a `str` whose data address is `a` (41_move.md R142). -/
def State.storesTo (s : State) (a : Nat) : Bool :=
  match s.fetch with
  | none => false
  | some w =>
    match decodeWord w with
    | .ok (.str dest _ _) =>
      match s.resolve dest with
      | .ok vd => vd == a
      | .error _ => false
    | _ => false

/-- Exactly `k` steps lead from `s` to `t`, where the end-of-run condition holds for the first time (40_cycle.md R126,
R128). -/
structure State.EndsAfter (s : State) (k : Nat) (t : State) : Prop where
  reached : core.run k s = .next t
  ended : t.ended = true
  first : ∀ j u, j < k → core.run j s = .next u → u.ended = false

/-- The host has answered what the instruction asks of the console, if it asks anything (45_io.md R212). -/
def State.hasAnswerFor (s : State) (o : Opcode) : Bool :=
  match o with
  | .sti => !s.lines.isEmpty
  | .sto => !s.acks.isEmpty
  | _ => true

/-- The pc result `pc'` of an instruction with the resolved values `v`: the pc, except for a taken branch
(10_state.md R25). -/
def State.pcResult (s : State) (o : Opcode) (v : Resolved) : Nat :=
  if (o = .jpt ∧ v.v1 ≠ 0) ∨ (o = .jpf ∧ v.v1 = 0) then
    if v.v2 = 0 then s.pc - v.vd else s.pc + v.vd
  else s.pc

/-- The byte an operand byte becomes when it is disassembled and assembled again: the register bytes 0x20 to 0x3F lose
their mode bits, every other byte that assembly text can give stays (30_encoding.md R108). -/
def reassembledByte (b : Byte) : Byte := if 0x20 ≤ b.toNat ∧ b.toNat < 0x40 then 0x10#8 ||| (b &&& 0x0F#8) else b

end Sys2Proof.Machine
end

