-- ==== Sys2Proof/Certificates/Slice0/Obligations.lean ====
section
/-!
DEFINITION. The statements for the provers. A docstring names the rule of spec/ that a statement formalises; where a
statement rests on a decision of the spec's own (D1 to D29 of 92_eei_decisions.md) or on an entry of the assumption
log, it says so.
-/

open Sys2Proof Sys2Proof.Machine

/-! ### Encoding -/

/-- 30_encoding.md R71: the word and the byte form of an instruction are exact inverses. -/
def Obligations.WordAndBytesAreInverse : Prop :=
  (∀ o d a b : Byte,
    packWord o d a b =
      (o.setWidth 32 <<< 24 ||| d.setWidth 32 <<< 16 ||| a.setWidth 32 <<< 8 ||| b.setWidth 32) ∧
    bytesOfWord (packWord o d a b) = [o, d, a, b]) ∧
  ∀ w : InsnWord, packWord (opcodeByte w) (destByte w) (op1Byte w) (op2Byte w) = w

/-- 30_encoding.md R73: the mode, the value and the resolved value of every operand byte, by the ranges of the table
(an offset whose sum is no word is the subject of `OperandFaultsComeFirst`). -/
def Obligations.OperandModeTable : Prop :=
  ∀ (b : Byte) (s : State),
    (0x80 ≤ b.toNat →
      (∃ v, decodeOperand b = .imm v ∧ v.toNat = b.toNat % 128) ∧
      s.resolve (decodeOperand b) = .ok (b.toNat % 128)) ∧
    (0x40 ≤ b.toNat ∧ b.toNat ≤ 0x7F →
      (∃ v, decodeOperand b = .off v ∧ v.toNat = b.toNat % 64) ∧
      (s.pc + b.toNat % 64 ≤ s.maxWord → s.resolve (decodeOperand b) = .ok (s.pc + b.toNat % 64))) ∧
    (0x10 ≤ b.toNat ∧ b.toNat ≤ 0x3F →
      (∃ mm r, decodeOperand b = .reg mm r ∧ mm ≠ 0#2 ∧ r.toNat = b.toNat % 16) ∧
      s.resolve (decodeOperand b) = .ok (s.readReg ⟨b.toNat % 16, Nat.mod_lt _ (by decide)⟩)) ∧
    (b.toNat ≤ 0x0F →
      (∃ v, decodeOperand b = .narrow v ∧ v.toNat = b.toNat % 16) ∧
      s.resolve (decodeOperand b) = .ok (b.toNat % 16))

/-- 30_encoding.md R78: the source's three resolution examples, in every state whose words hold the sum 11. -/
def Obligations.ResolutionExamples : Prop :=
  ∀ s : State,
    s.resolve (decodeOperand 0x83#8) = .ok 3 ∧
    (s.readReg 2 = 7 → s.resolve (decodeOperand 0x12#8) = .ok 7) ∧
    (s.pc = 10 → 11 ≤ s.maxWord → s.resolve (decodeOperand 0x41#8) = .ok 11)

/-- 30_encoding.md R82, R83: the complete opcode map, and Unknown on every other byte. -/
def Obligations.OpcodeMapIsExact : Prop :=
  (decodeOp 0x00 = some .hlt ∧ decodeOp 0x01 = some .ldr ∧ decodeOp 0x02 = some .str ∧ decodeOp 0x03 = some .set ∧
    decodeOp 0x04 = some .cpy ∧ decodeOp 0x10 = some .jpt ∧ decodeOp 0x11 = some .jpf ∧ decodeOp 0x20 = some .add ∧
    decodeOp 0x21 = some .sub ∧ decodeOp 0x22 = some .mul ∧ decodeOp 0x23 = some .div ∧ decodeOp 0x24 = some .mod ∧
    decodeOp 0x30 = some .eql ∧ decodeOp 0x31 = some .neq ∧ decodeOp 0x32 = some .let_ ∧ decodeOp 0x33 = some .leq ∧
    decodeOp 0x34 = some .grt ∧ decodeOp 0x35 = some .geq ∧ decodeOp 0x50 = some .sti ∧ decodeOp 0x51 = some .sto) ∧
  ∀ b : Byte,
    decodeOp b = none ↔
      b.toNat ∉ [0x00, 0x01, 0x02, 0x03, 0x04, 0x10, 0x11, 0x20, 0x21, 0x22, 0x23, 0x24, 0x30, 0x31, 0x32, 0x33, 0x34,
        0x35, 0x50, 0x51]

/-- Decode and encode agree: every well-formed instruction, with every operand at every value, is read back from its
word and from its bytes, whatever bytes follow (30_encoding.md R70 to R73). -/
def Obligations.DecodeOfEncode : Prop :=
  ∀ (i : Instr) (rest : List Byte),
    i.wf = true → decodeWord (encode i) = .ok i ∧ decodeBytes (encodeBytes i ++ rest) = .ok (i, rest)

/-- Every word has one meaning: what the decoder reads is well formed and encodes to the word read (30_encoding.md R71,
R85). -/
def Obligations.EncodeOfDecode : Prop :=
  ∀ (w : InsnWord) (i : Instr), decodeWord w = .ok i → encode i = w ∧ i.wf = true

/-- A few words of 95_test_vectors.md, one of each group and operand mode, decode to the instructions they stand for. -/
def Obligations.SpecWordsDecode : Prop :=
  decodeWord 0x00000000 = .ok (.hlt (.narrow 0) (.narrow 0) (.narrow 0)) ∧
  decodeWord 0x0183E400 = .ok (.ldr (.imm 3) (.imm 100) (.narrow 0)) ∧
  decodeWord 0x02448100 = .ok (.str (.off 4) (.imm 1) (.narrow 0)) ∧
  decodeWord 0x10831380 = .ok (.jpt (.imm 3) (.reg 1 3) (.imm 0)) ∧
  decodeWord 0x20811011 = .ok (.add (.imm 1) (.reg 1 0) (.reg 1 1)) ∧
  decodeWord 0x32831188 = .ok (.let_ (.imm 3) (.reg 1 1) (.imm 8)) ∧
  decodeWord 0x51808000 = .ok (.sto (.imm 0) (.imm 0) (.narrow 0))

/-- 30_encoding.md R84 (decision D29), 60_exceptions.md R221, R225 (D8): executing a word whose opcode is in one of the
five illegal ranges latches UnknownOpcode with the opcode byte, before any operand is looked at. -/
def Obligations.UnknownOpcodeIsLatched : Prop :=
  ∀ (s : State) (w : InsnWord),
    s.run = .running → s.fault.valid = false → s.rom[s.pc]? = some w →
    (let o := (opcodeByte w).toNat
     (0x05 ≤ o ∧ o ≤ 0x0F) ∨ (0x12 ≤ o ∧ o ≤ 0x1F) ∨ (0x25 ≤ o ∧ o ≤ 0x2F) ∨ (0x36 ≤ o ∧ o ≤ 0x4F) ∨
       (0x52 ≤ o ∧ o ≤ 0xFF)) →
    step s =
      .next
        { s with
          fault :=
            { valid := true, cause := 1, sub := 0, fpc := s.pc, fword := w, info := (opcodeByte w).toNat } }

/-! ### The step -/

/-- 40_cycle.md R120: an enabled step whose word decodes to a well-formed instruction runs exactly that instruction, on
the state before the step (the increment of the pc is part of `exec`). -/
def Obligations.StepRunsDecodedInstruction : Prop :=
  ∀ (s : State) (w : InsnWord) (i : Instr),
    s.run = .running → s.fault.valid = false → s.rom[s.pc]? = some w → decodeWord w = .ok i → i.wf = true →
    step s = exec i s

/-- 40_cycle.md R120, R130 (decision D17; notes/assumptions/5.md): when no step is enabled, a step does nothing. -/
def Obligations.StepDoesNothingUnlessEnabled : Prop :=
  ∀ s : State, s.run ≠ .running ∨ s.fault.valid = true ∨ s.rom.length ≤ s.pc → step s = .next s

/-! ### Halt and data movement (41_move.md) -/

/-- R140: `hlt` sets Halting and moves to the next index; nothing else changes. -/
def Obligations.HltHalts : Prop :=
  ∀ (s : State) (d a b : Operand) (vd v1 v2 : Nat),
    s.ResolvesTo d a b vd v1 v2 → s.pc + 1 ≤ s.maxWord →
    exec (.hlt d a b) s = .next { s with run := .halting, pc := s.pc + 1 }

/-- R141: `ldr` writes the word at address `v1` into x[vd]; nothing else changes but the pc. -/
def Obligations.LdrLoads : Prop :=
  ∀ (s : State) (d a b : Operand) (vd v1 v2 : Nat) (h : vd < 16),
    s.ResolvesTo d a b vd v1 v2 → v1 < s.cfg.memWords → s.pc + 1 ≤ s.maxWord →
    exec (.ldr d a b) s = .next { s with regs := s.regs.set vd (s.memRead v1) h, pc := s.pc + 1 }

/-- R142: `str` stores x[v1] at address `vd`, the resolved `dest`; every other address reads as before and nothing else
changes but the pc. -/
def Obligations.StrStores : Prop :=
  ∀ (s : State) (d a b : Operand) (vd v1 v2 : Nat) (h : v1 < 16),
    s.ResolvesTo d a b vd v1 v2 → vd < s.cfg.memWords → s.pc + 1 ≤ s.maxWord → s.mem.wf = true →
    ∃ m : Memory,
      exec (.str d a b) s = .next { s with mem := m, pc := s.pc + 1 } ∧
      m.read vd = s.readReg ⟨v1, h⟩ ∧ (∀ x, x ≠ vd → m.read x = s.mem.read x) ∧ m.wf = true

/-- R143: `set` writes `v1` into x[vd], or raises OutOfBounds(Register, vd) when `vd` is 16 or more. -/
def Obligations.SetWritesOrFaults : Prop :=
  ∀ (s : State) (d a b : Operand) (vd v1 v2 : Nat),
    s.ResolvesTo d a b vd v1 v2 →
    (∀ h : vd < 16, s.pc + 1 ≤ s.maxWord →
      exec (.set d a b) s = .next { s with regs := s.regs.set vd v1 h, pc := s.pc + 1 }) ∧
    (16 ≤ vd → exec (.set d a b) s = .next (s.takeFault { kind := .register, info := vd }))

/-- R144: `cpy` copies x[v1] into x[vd]; nothing else changes but the pc. -/
def Obligations.CpyCopies : Prop :=
  ∀ (s : State) (d a b : Operand) (vd v1 v2 : Nat) (hd : vd < 16) (hs : v1 < 16),
    s.ResolvesTo d a b vd v1 v2 → s.pc + 1 ≤ s.maxWord →
    exec (.cpy d a b) s = .next { s with regs := s.regs.set vd (s.readReg ⟨v1, hs⟩) hd, pc := s.pc + 1 }

/-- R141, R142, R144 (decisions D8, D10): the faults of `ldr`, `str` and `cpy` and their order: the source first, then
the destination. -/
def Obligations.MoveFaultOrder : Prop :=
  ∀ (s : State) (d a b : Operand) (vd v1 v2 : Nat),
    s.ResolvesTo d a b vd v1 v2 →
    (s.cfg.memWords ≤ v1 → exec (.ldr d a b) s = .next (s.latching 3 1 v1)) ∧
    (v1 < s.cfg.memWords → 16 ≤ vd → exec (.ldr d a b) s = .next (s.latching 3 0 vd)) ∧
    (16 ≤ v1 → exec (.str d a b) s = .next (s.latching 3 0 v1)) ∧
    (v1 < 16 → s.cfg.memWords ≤ vd → exec (.str d a b) s = .next (s.latching 3 1 vd)) ∧
    (16 ≤ v1 → exec (.cpy d a b) s = .next (s.latching 3 0 v1)) ∧
    (v1 < 16 → 16 ≤ vd → exec (.cpy d a b) s = .next (s.latching 3 0 vd))

/-! ### Branches (42_branch.md) -/

/-- R160, R161: a branch that is not taken moves to the next index and changes nothing else, whatever `vd` and `v2`. -/
def Obligations.BranchNotTaken : Prop :=
  ∀ (s : State) (d a b : Operand) (vd v1 v2 : Nat),
    s.ResolvesTo d a b vd v1 v2 → s.pc + 1 ≤ s.maxWord →
    (v1 = 0 → exec (.jpt d a b) s = .next { s with pc := s.pc + 1 }) ∧
    (v1 ≠ 0 → exec (.jpf d a b) s = .next { s with pc := s.pc + 1 })

/-- R160, R161: a branch taken forward continues at `pc + vd + 1`, inside the ROM or past its end. -/
def Obligations.BranchForward : Prop :=
  ∀ (s : State) (d a b : Operand) (vd v1 v2 : Nat),
    s.ResolvesTo d a b vd v1 v2 → v2 ≠ 0 → s.pc + vd + 1 ≤ s.maxWord →
    (v1 ≠ 0 → exec (.jpt d a b) s = .next { s with pc := s.pc + vd + 1 }) ∧
    (v1 = 0 → exec (.jpf d a b) s = .next { s with pc := s.pc + vd + 1 })

/-- R160, R161: a branch taken backward continues at `pc - vd + 1`. -/
def Obligations.BranchBackward : Prop :=
  ∀ (s : State) (d a b : Operand) (vd v1 v2 : Nat),
    s.ResolvesTo d a b vd v1 v2 → v2 = 0 → vd ≤ s.pc → s.pc - vd + 1 ≤ s.maxWord →
    (v1 ≠ 0 → exec (.jpt d a b) s = .next { s with pc := s.pc - vd + 1 }) ∧
    (v1 = 0 → exec (.jpf d a b) s = .next { s with pc := s.pc - vd + 1 })

/-- R160, R161, 10_state.md R26 (decisions D3, D8): a taken branch below index 0 latches OutOfBounds(Pc, vd), even where
the increment would bring it back, and one beyond the last word latches OutOfBounds(Pc) with the sum reduced: forward, or
backward by so little that the increment alone leaves the range. -/
def Obligations.BranchFaults : Prop :=
  ∀ (s : State) (d a b : Operand) (vd v1 v2 : Nat),
    s.ResolvesTo d a b vd v1 v2 →
    (v2 = 0 → s.pc < vd →
      (v1 ≠ 0 → exec (.jpt d a b) s = .next (s.latching 3 2 vd)) ∧
      (v1 = 0 → exec (.jpf d a b) s = .next (s.latching 3 2 vd))) ∧
    (v2 = 0 → vd ≤ s.pc → s.maxWord < s.pc - vd + 1 →
      (v1 ≠ 0 → exec (.jpt d a b) s = .next (s.latching 3 2 ((s.pc - vd + 1) % 2 ^ s.cfg.wordBits))) ∧
      (v1 = 0 → exec (.jpf d a b) s = .next (s.latching 3 2 ((s.pc - vd + 1) % 2 ^ s.cfg.wordBits)))) ∧
    (v2 ≠ 0 → s.maxWord < s.pc + vd + 1 →
      (v1 ≠ 0 → exec (.jpt d a b) s = .next (s.latching 3 2 ((s.pc + vd + 1) % 2 ^ s.cfg.wordBits))) ∧
      (v1 = 0 → exec (.jpf d a b) s = .next (s.latching 3 2 ((s.pc + vd + 1) % 2 ^ s.cfg.wordBits))))

/-- 42_branch.md R163, from R160 and R161: index 0 is reachable only by a load: a step that leaves the pc at 0 started
there and either did nothing or latched a fault. -/
def Obligations.IndexZeroIsNeverReached : Prop :=
  ∀ s t : State, step s = .next t → t.pc = 0 → s.pc = 0 ∧ (t = s ∨ t.fault.valid = true)

/-- 10_state.md R25: after every instruction that does not fault the pc is `pc' + 1`, where `pc'` is the pc except for a
taken branch. -/
def Obligations.PcAfterEveryInstruction : Prop :=
  ∀ (i : Instr) (s t : State) (v : Resolved),
    s.resolveAll i.operands.1 i.operands.2.1 i.operands.2.2 = .ok v → s.hasAnswerFor i.opcode = true →
    s.fault.valid = false → exec i s = .next t → t.fault.valid = false → t.pc = s.pcResult i.opcode v + 1

/-! ### Arithmetic (43_arith.md) -/

/-- R171, R172, R173: `add`, `sub` and `mul` write the exact result into x[vd] when it is a word; nothing else changes
but the pc. -/
def Obligations.AddSubMulResults : Prop :=
  ∀ (s : State) (d a b : Operand) (vd v1 v2 : Nat) (h : vd < 16),
    s.ResolvesTo d a b vd v1 v2 → s.pc + 1 ≤ s.maxWord →
    (v1 + v2 ≤ s.maxWord →
      exec (.add d a b) s = .next { s with regs := s.regs.set vd (v1 + v2) h, pc := s.pc + 1 }) ∧
    (v2 ≤ v1 → v1 - v2 ≤ s.maxWord →
      exec (.sub d a b) s = .next { s with regs := s.regs.set vd (v1 - v2) h, pc := s.pc + 1 }) ∧
    (v1 * v2 ≤ s.maxWord →
      exec (.mul d a b) s = .next { s with regs := s.regs.set vd (v1 * v2) h, pc := s.pc + 1 })

/-- R170 to R173 (decisions D2, D8, D10): under the policy `fault` a result that is no word latches
ArithmeticFault(Overflow), before the destination index is looked at. -/
def Obligations.OverflowFaults : Prop :=
  ∀ (s : State) (d a b : Operand) (vd v1 v2 : Nat),
    s.ResolvesTo d a b vd v1 v2 → s.cfg.overflow = .fault →
    (s.maxWord < v1 + v2 → exec (.add d a b) s = .next (s.latching 2 2 0)) ∧
    (v1 < v2 → exec (.sub d a b) s = .next (s.latching 2 2 0)) ∧
    (s.maxWord < v1 * v2 → exec (.mul d a b) s = .next (s.latching 2 2 0))

/-- R170 to R173 (decision D2): under the policy `wrap` a result that is no word is reduced modulo 2^WORD_BITS, for `sub`
the two's-complement wrap. -/
def Obligations.OverflowWraps : Prop :=
  ∀ (s : State) (d a b : Operand) (vd v1 v2 : Nat) (h : vd < 16),
    s.ResolvesTo d a b vd v1 v2 → s.cfg.overflow = .wrap → s.pc + 1 ≤ s.maxWord →
    (s.maxWord < v1 + v2 →
      exec (.add d a b) s =
        .next { s with regs := s.regs.set vd ((v1 + v2) % 2 ^ s.cfg.wordBits) h, pc := s.pc + 1 }) ∧
    (v1 < v2 → v2 ≤ s.maxWord →
      exec (.sub d a b) s =
        .next { s with regs := s.regs.set vd (v1 + 2 ^ s.cfg.wordBits - v2) h, pc := s.pc + 1 }) ∧
    (s.maxWord < v1 * v2 →
      exec (.mul d a b) s =
        .next { s with regs := s.regs.set vd (v1 * v2 % 2 ^ s.cfg.wordBits) h, pc := s.pc + 1 })

/-- R174, R175, R176 (decision D11): for a divisor that is not 0, `div` writes the floor quotient q and `mod` the remainder
r, the ones with v1 = v2 * q + r and r < v2; nothing else changes but the pc. -/
def Obligations.DivModResults : Prop :=
  ∀ (s : State) (d a b : Operand) (vd v1 v2 : Nat) (h : vd < 16),
    s.ResolvesTo d a b vd v1 v2 → s.pc + 1 ≤ s.maxWord → v2 ≠ 0 →
    ∃ q r : Nat,
      v1 = v2 * q + r ∧ r < v2 ∧
      exec (.div d a b) s = .next { s with regs := s.regs.set vd q h, pc := s.pc + 1 } ∧
      exec (.mod d a b) s = .next { s with regs := s.regs.set vd r h, pc := s.pc + 1 }

/-- R174, R175 (decisions D8, D10): a zero divisor latches ArithmeticFault, whatever the dividend and the destination, and
no result is produced. -/
def Obligations.ZeroDivisorFaults : Prop :=
  ∀ (s : State) (d a b : Operand) (vd v1 : Nat),
    s.ResolvesTo d a b vd v1 0 →
    exec (.div d a b) s = .next (s.latching 2 0 0) ∧ exec (.mod d a b) s = .next (s.latching 2 1 0)

/-! ### Comparisons (44_compare.md) -/

/-- R190 to R196 (the relations but `let`'s are the spec's decision D12): each comparison writes 1 or 0 into x[vd];
nothing else changes but the pc. -/
def Obligations.ComparisonResults : Prop :=
  ∀ (s : State) (d a b : Operand) (vd v1 v2 : Nat) (h : vd < 16),
    s.ResolvesTo d a b vd v1 v2 → s.pc + 1 ≤ s.maxWord →
    exec (.eql d a b) s = .next { s with regs := s.regs.set vd (if v1 = v2 then 1 else 0) h, pc := s.pc + 1 } ∧
    exec (.neq d a b) s = .next { s with regs := s.regs.set vd (if v1 = v2 then 0 else 1) h, pc := s.pc + 1 } ∧
    exec (.let_ d a b) s = .next { s with regs := s.regs.set vd (if v1 < v2 then 1 else 0) h, pc := s.pc + 1 } ∧
    exec (.leq d a b) s = .next { s with regs := s.regs.set vd (if v2 < v1 then 0 else 1) h, pc := s.pc + 1 } ∧
    exec (.grt d a b) s = .next { s with regs := s.regs.set vd (if v2 < v1 then 1 else 0) h, pc := s.pc + 1 } ∧
    exec (.geq d a b) s = .next { s with regs := s.regs.set vd (if v1 < v2 then 0 else 1) h, pc := s.pc + 1 }

/-- 10_state.md R22, 43_arith.md R170, 44_compare.md R190 (decisions D2, D8, D10): an ALU instruction whose own check passes
latches OutOfBounds(Register, vd) when `vd` is 16 or more. Under the policy `wrap` the check of `add`, `sub` and `mul` always
passes. -/
def Obligations.DestinationIndexChecked : Prop :=
  ∀ (s : State) (d a b : Operand) (vd v1 v2 : Nat),
    s.ResolvesTo d a b vd v1 v2 → 16 ≤ vd →
    (s.cfg.overflow = .wrap ∨ v1 + v2 ≤ s.maxWord → exec (.add d a b) s = .next (s.latching 3 0 vd)) ∧
    (s.cfg.overflow = .wrap ∨ (v2 ≤ v1 ∧ v1 - v2 ≤ s.maxWord) →
      exec (.sub d a b) s = .next (s.latching 3 0 vd)) ∧
    (s.cfg.overflow = .wrap ∨ v1 * v2 ≤ s.maxWord → exec (.mul d a b) s = .next (s.latching 3 0 vd)) ∧
    (v2 ≠ 0 →
      exec (.div d a b) s = .next (s.latching 3 0 vd) ∧ exec (.mod d a b) s = .next (s.latching 3 0 vd)) ∧
    exec (.eql d a b) s = .next (s.latching 3 0 vd) ∧
    exec (.neq d a b) s = .next (s.latching 3 0 vd) ∧
    exec (.let_ d a b) s = .next (s.latching 3 0 vd) ∧
    exec (.leq d a b) s = .next (s.latching 3 0 vd) ∧
    exec (.grt d a b) s = .next (s.latching 3 0 vd) ∧
    exec (.geq d a b) s = .next (s.latching 3 0 vd)

/-! ### Console (45_io.md) -/

/-- R210, R212, R213 (decision D21): `sti` with an answered line that is a number writes the number into x[vd] and
consumes the line; nothing else changes but the pc. -/
def Obligations.StiReadsNumber : Prop :=
  ∀ (s : State) (d a b : Operand) (vd v1 v2 n : Nat) (h : vd < 16) (text : Text) (rest : List LineAnswer),
    s.ResolvesTo d a b vd v1 v2 → s.lines = .line text :: rest → parseUnsigned s.maxWord text = some n →
    s.pc + 1 ≤ s.maxWord →
    exec (.sti d a b) s = .next { s with regs := s.regs.set vd n h, lines := rest, pc := s.pc + 1 }

/-- R210 (decisions D8, D21, D28): the faults of `sti`: a bad destination consumes no input, a failed read is
IOFailure(Read), and a line that is no number is IOFailure(Parse) and stays consumed. That the answer of a failed read is
used up too is the model's choice (notes/assumptions/9.md). -/
def Obligations.StiFaults : Prop :=
  ∀ (s : State) (d a b : Operand) (vd v1 v2 : Nat),
    s.ResolvesTo d a b vd v1 v2 →
    (16 ≤ vd → exec (.sti d a b) s = .next (s.latching 3 0 vd)) ∧
    (∀ rest, vd < 16 → s.lines = .fail :: rest →
      exec (.sti d a b) s = .next ({ s with lines := rest }.latching 4 0 0)) ∧
    (∀ text rest, vd < 16 → s.lines = .line text :: rest → parseUnsigned s.maxWord text = none →
      exec (.sti d a b) s = .next ({ s with lines := rest }.latching 4 1 0))

/-- R211, R212 (decision D22): `sto` whose write the host accepts appends the decimal text of x[vd] to the output channel;
nothing else changes but the pc. -/
def Obligations.StoWritesDecimal : Prop :=
  ∀ (s : State) (d a b : Operand) (vd v1 v2 : Nat) (h : vd < 16) (rest : List WriteAnswer),
    s.ResolvesTo d a b vd v1 v2 → s.acks = .ok :: rest → s.pc + 1 ≤ s.maxWord →
    exec (.sto d a b) s =
      .next { s with output := s.output ++ [decimal (s.readReg ⟨vd, h⟩)], acks := rest, pc := s.pc + 1 }

/-- R211 (decisions D8, D22; notes/assumptions/10.md): the faults of `sto`: a bad register index asks the host nothing, a
failed write is IOFailure(Write) with nothing emitted. That the answer of a failed write is used up is the model's choice
(notes/assumptions/9.md). -/
def Obligations.StoFaults : Prop :=
  ∀ (s : State) (d a b : Operand) (vd v1 v2 : Nat),
    s.ResolvesTo d a b vd v1 v2 →
    (16 ≤ vd → exec (.sto d a b) s = .next (s.latching 3 0 vd)) ∧
    (∀ rest, vd < 16 → s.acks = .fail :: rest →
      exec (.sto d a b) s = .next ({ s with acks := rest }.latching 4 2 0))

/-- R210, 20_memory.md R64, 60_exceptions.md R239 (the model's choice of notes/assumptions/8.md: a wait is a step that
changes nothing): while the host has not answered, the block blocks. -/
def Obligations.ConsoleWaitsForHost : Prop :=
  (∀ (s : State) (d a b : Operand) (vd v1 v2 : Nat),
    s.ResolvesTo d a b vd v1 v2 → vd < 16 →
    (s.lines = [] → exec (.sti d a b) s = .next s) ∧ (s.acks = [] → exec (.sto d a b) s = .next s)) ∧
  ∀ s : State, s.blocked = true → step s = .next s

/-! ### Faults of every instruction -/

/-- 30_encoding.md R76, R77, 40_cycle.md R122 (decisions D4, D8, D10, D27): every instruction resolves all three operands
before anything else, in the order dest, op1, op2, and an offset whose sum is no word latches OutOfBounds(Operand). -/
def Obligations.OperandFaultsComeFirst : Prop :=
  ∀ (i : Instr) (s : State) (v : BitVec 6),
    s.maxWord < s.pc + v.toNat →
    (i.operands.1 = .off v → exec i s = .next (s.latching 3 3 ((s.pc + v.toNat) % 2 ^ s.cfg.wordBits))) ∧
    (∀ vd, s.resolve i.operands.1 = .ok vd → i.operands.2.1 = .off v →
      exec i s = .next (s.latching 3 3 ((s.pc + v.toNat) % 2 ^ s.cfg.wordBits))) ∧
    (∀ vd v1, s.resolve i.operands.1 = .ok vd → s.resolve i.operands.2.1 = .ok v1 → i.operands.2.2 = .off v →
      exec i s = .next (s.latching 3 3 ((s.pc + v.toNat) % 2 ^ s.cfg.wordBits)))

/-- From 10_state.md R26 (decision D3): no instruction moves the pc beyond the greatest word, and an instruction other than a
branch at the greatest index either waits for the host with nothing changed or latches a fault. Which fault the increment
latches is said by `IncrementOverflowLatches`, and what a taken branch out of range does by `BranchFaults`. -/
def Obligations.PcStaysInRange : Prop :=
  ∀ (i : Instr) (s t : State),
    exec i s = .next t →
    (t.pc = s.pc ∨ t.pc ≤ s.maxWord) ∧
    (s.maxWord < s.pc + 1 → i.opcode ≠ .jpt → i.opcode ≠ .jpf →
      (t = s ∧ s.hasAnswerFor i.opcode = false) ∨
        (t.fault.valid = true ∧ t = { s with fault := t.fault, lines := t.lines, acks := t.acks }))

/-- 10_state.md R26, 40_cycle.md R120, 60_exceptions.md R225, R230 (decisions D2, D3, D8, D10): an instruction that passes
all its own checks where pc + 1 is no word latches OutOfBounds(Pc) with pc + 1 reduced, and does nothing else. A branch that
is taken is the subject of `BranchFaults`. That the console answer is used up, and that the text of `sto` is not recorded,
is the model's choice (notes/assumptions/9.md and 10.md). -/
def Obligations.IncrementOverflowLatches : Prop :=
  ∀ (s : State) (d a b : Operand) (vd v1 v2 : Nat),
    s.ResolvesTo d a b vd v1 v2 → s.maxWord < s.pc + 1 →
    let overflow (u : State) : Result := .next (u.latching 3 2 ((s.pc + 1) % 2 ^ s.cfg.wordBits))
    exec (.hlt d a b) s = overflow s ∧
    (v1 < s.cfg.memWords → vd < 16 → exec (.ldr d a b) s = overflow s) ∧
    (v1 < 16 → vd < s.cfg.memWords → exec (.str d a b) s = overflow s) ∧
    (vd < 16 → exec (.set d a b) s = overflow s) ∧
    (v1 < 16 → vd < 16 → exec (.cpy d a b) s = overflow s) ∧
    (v1 = 0 → exec (.jpt d a b) s = overflow s) ∧
    (v1 ≠ 0 → exec (.jpf d a b) s = overflow s) ∧
    (vd < 16 →
      (s.cfg.overflow = .wrap ∨ v1 + v2 ≤ s.maxWord → exec (.add d a b) s = overflow s) ∧
      (s.cfg.overflow = .wrap ∨ (v2 ≤ v1 ∧ v1 - v2 ≤ s.maxWord) → exec (.sub d a b) s = overflow s) ∧
      (s.cfg.overflow = .wrap ∨ v1 * v2 ≤ s.maxWord → exec (.mul d a b) s = overflow s) ∧
      (v2 ≠ 0 → exec (.div d a b) s = overflow s ∧ exec (.mod d a b) s = overflow s) ∧
      exec (.eql d a b) s = overflow s ∧ exec (.neq d a b) s = overflow s ∧
      exec (.let_ d a b) s = overflow s ∧ exec (.leq d a b) s = overflow s ∧
      exec (.grt d a b) s = overflow s ∧ exec (.geq d a b) s = overflow s ∧
      (∀ text rest n, s.lines = .line text :: rest → parseUnsigned s.maxWord text = some n →
        exec (.sti d a b) s = overflow { s with lines := rest }) ∧
      (∀ rest, s.acks = .ok :: rest → exec (.sto d a b) s = overflow { s with acks := rest }))

/-- 60_exceptions.md R225, R226, R228 (decisions D8, D9, D28): faults are precise. A step that latches a fault changes
nothing but the latch and the console answers it used, at most one; the latch names the pc and the word executed and holds
codes of R220. -/
def Obligations.FaultsArePrecise : Prop :=
  ∀ s t : State,
    step s = .next t → s.fault.valid = false → t.fault.valid = true →
    t = { s with fault := t.fault, lines := t.lines, acks := t.acks } ∧
    (t.lines = s.lines ∨ ∃ x, s.lines = x :: t.lines) ∧ (t.acks = s.acks ∨ ∃ x, s.acks = x :: t.acks) ∧
    t.fault.fpc = s.pc ∧ s.rom[s.pc]? = some t.fault.fword ∧ legalCodes t.fault.cause t.fault.sub = true

/-- 60_exceptions.md R224: IOFailure is raised only by `sti` and `sto`. -/
def Obligations.IoFailureOnlyByConsole : Prop :=
  ∀ (i : Instr) (s t : State),
    exec i s = .next t → s.fault.valid = false → t.fault.valid = true → t.fault.cause = 4 →
    i.opcode = .sti ∨ i.opcode = .sto

/-- 60_exceptions.md R229, 10_state.md R40 (decisions D6, D7): while the latch is valid no step does anything and `run()`
returns the latched fault at once; a load clears the latch. -/
def Obligations.FaultStaysUntilLoad : Prop :=
  ∀ s : State,
    s.fault.valid = true →
    (∀ n, core.run n s = .next s) ∧ (∀ fuel, s.runBlock fuel = some (s, .fault s.fault)) ∧
    ∀ words, words.length ≤ 2 ^ s.cfg.wordBits → ∃ t, s.load words = .ok t ∧ t.fault.valid = false

/-! ### Invariants and frames of the whole machine -/

/-- Every step keeps the invariant `State.Inv` of Safety.lean (00_scope.md R8, R10; 10_state.md R24, R33, R34;
60_exceptions.md R220, R225, R226; its width premise is notes/assumptions/2.md, DEDUCED). -/
def Obligations.EveryStepKeepsInvariant : Prop := ∀ s t : State, s.Inv → step s = .next t → t.Inv

/-- The state after construction meets the invariant, for every setting of the parameters with words of at least 8 bits
(70_reset_and_hazards.md R250). -/
def Obligations.ConstructionMeetsInvariant : Prop :=
  State.reset.Inv ∧ ∀ c : Config, 8 ≤ c.wordBits → (State.constructWith c).Inv

/-- The host's operations keep the invariant: construct, load, run and the console answers (10_state.md R40, R41). -/
def Obligations.HostOperationsKeepInvariant : Prop :=
  ∀ s : State,
    s.Inv →
    s.construct.Inv ∧ s.startRun.Inv ∧ (∀ x, (s.answerRead x).Inv) ∧ (∀ x, (s.answerWrite x).Inv) ∧
    ∀ words t, s.load words = .ok t → t.Inv

/-- Canonical memories that read alike are equal data (20_memory.md R57; the canonical form is the model's,
notes/assumptions/3.md). -/
def Obligations.EqualReadsEqualMemory : Prop :=
  ∀ m n : Memory, m.wf = true → n.wf = true → (∀ a, m.read a = n.read a) → m = n

/-- 10_state.md R33, 20_memory.md R62, 00_scope.md R8: no step changes the ROM or the parameters, and a run of any length
does not. -/
def Obligations.RomAndParametersNeverChange : Prop :=
  ∀ (n : Nat) (s t : State), core.run n s = .next t → t.rom = s.rom ∧ t.cfg = s.cfg

/-- 20_memory.md R50: `ldr` reads one memory word into one register, `str` writes one register into one memory word, and no
other instruction touches data memory: it writes none, and whatever memory holds, its effect is the same. -/
def Obligations.MemoryOnlyByLdrAndStr : Prop :=
  (∀ (s t : State) (d a b : Operand) (vd v1 v2 : Nat),
    s.ResolvesTo d a b vd v1 v2 → exec (.ldr d a b) s = .next t →
    t.mem = s.mem ∧ (t.regs = s.regs ∨ ∃ h : vd < 16, t.regs = s.regs.set vd (s.memRead v1) h)) ∧
  (∀ (s t : State) (d a b : Operand) (vd v1 v2 : Nat),
    s.ResolvesTo d a b vd v1 v2 → exec (.str d a b) s = .next t →
    t.regs = s.regs ∧ (t.mem = s.mem ∨ ∃ h : v1 < 16, t.mem = s.mem.write vd (s.readReg ⟨v1, h⟩))) ∧
  ∀ (i : Instr) (s t : State) (m : Memory),
    i.opcode ≠ .ldr → i.opcode ≠ .str → exec i s = .next t →
    t.mem = s.mem ∧ exec i { s with mem := m } = .next { t with mem := m }

/-- 10_state.md R21, R43, from R76 and the instruction rules: an instruction changes no register but x[vd]; if its operands
do not resolve, it changes none. -/
def Obligations.OnlyDestinationRegisterChanges : Prop :=
  ∀ (i : Instr) (s t : State),
    exec i s = .next t →
    (∀ v, s.resolveAll i.operands.1 i.operands.2.1 i.operands.2.2 = .ok v →
      ∀ j : RegIndex, j.val ≠ v.vd → t.readReg j = s.readReg j) ∧
    (∀ f, s.resolveAll i.operands.1 i.operands.2.1 i.operands.2.2 = .error f → t.regs = s.regs)

/-- 10_state.md R30 (decisions D9, D13): a step changes the run state only from Running to Halting, and only by `hlt`. -/
def Obligations.RunStateTransitions : Prop :=
  ∀ s t : State,
    step s = .next t →
    t.run = s.run ∨
      (s.run = .running ∧ t.run = .halting ∧
        ∃ w i, s.fetch = some w ∧ decodeWord w = .ok i ∧ i.opcode = .hlt)

/-- 30_encoding.md R87 (decision D14): the rows of the decoder's control table, in its columns' order (cls, alu_fn, rf_we,
rf_rd_idx, mem_re, mem_we, br, io, halt), none for an unknown opcode; `alu_fn` of the groups 0x2 and 0x3 is the function
nibble; and the signals say what an instruction may write: registers, memory, the console channels, the run state and the
pc. -/
def Obligations.ControlSignalsGovernWrites : Prop :=
  (∀ row ∈
      ([
        (0x00, ⟨.sys, none, false, none, false, false, false, none, true⟩),
        (0x01, ⟨.load, none, true, none, true, false, false, none, false⟩),
        (0x02, ⟨.store, none, false, some .v1, false, true, false, none, false⟩),
        (0x03, ⟨.move, some .pass1, true, none, false, false, false, none, false⟩),
        (0x04, ⟨.move, some .passR, true, some .v1, false, false, false, none, false⟩),
        (0x10, ⟨.branch, some .nz, false, none, false, false, true, none, false⟩),
        (0x11, ⟨.branch, some .z, false, none, false, false, true, none, false⟩),
        (0x20, ⟨.alu, some .add, true, none, false, false, false, none, false⟩),
        (0x21, ⟨.alu, some .sub, true, none, false, false, false, none, false⟩),
        (0x22, ⟨.alu, some .mul, true, none, false, false, false, none, false⟩),
        (0x23, ⟨.alu, some .div, true, none, false, false, false, none, false⟩),
        (0x24, ⟨.alu, some .mod, true, none, false, false, false, none, false⟩),
        (0x30, ⟨.cmp, some .eq, true, none, false, false, false, none, false⟩),
        (0x31, ⟨.cmp, some .ne, true, none, false, false, false, none, false⟩),
        (0x32, ⟨.cmp, some .lt, true, none, false, false, false, none, false⟩),
        (0x33, ⟨.cmp, some .le, true, none, false, false, false, none, false⟩),
        (0x34, ⟨.cmp, some .gt, true, none, false, false, false, none, false⟩),
        (0x35, ⟨.cmp, some .ge, true, none, false, false, false, none, false⟩),
        (0x50, ⟨.input, none, true, none, false, false, false, some .input, false⟩),
        (0x51, ⟨.output, none, false, some .vd, false, false, false, some .output, false⟩)] : List (Byte × Controls)),
    controlsOfByte row.1 = some row.2) ∧
  (∀ b : Byte, decodeOp b = none → controlsOfByte b = none) ∧
  (∀ o : Opcode, o.group = 2 ∨ o.group = 3 → (controls o).aluFn.bind AluFn.code = some o.function) ∧
  ∀ (i : Instr) (s t : State),
    exec i s = .next t →
    ((controls i.opcode).rfWe = false → t.regs = s.regs) ∧
    ((controls i.opcode).memWe = false → t.mem = s.mem) ∧
    ((controls i.opcode).io ≠ some .input → t.lines = s.lines) ∧
    ((controls i.opcode).io ≠ some .output → t.acks = s.acks ∧ t.output = s.output) ∧
    ((controls i.opcode).halt = false → t.run = s.run) ∧
    ((controls i.opcode).br = false → t.pc = s.pc ∨ t.pc = s.pc + 1)

/-- 10_state.md R35, R44, 20_memory.md R62: an instruction's effect does not depend on the ROM, which only fetch and the
fault latch read. -/
def Obligations.RomHoldsNoData : Prop :=
  ∀ (i : Instr) (s t : State) (rom : List InsnWord),
    exec i s = .next t → s.fault.valid = false → t.fault.valid = false →
    exec i { s with rom := rom } = .next { t with rom := rom }

/-! ### Runs -/

/-- 20_memory.md R64: over a run of any length the output channel only grows at its end, and lines are consumed only from
the front, in order. -/
def Obligations.ConsoleOrder : Prop :=
  ∀ (n : Nat) (s t : State),
    core.run n s = .next t → s.output <+: t.output ∧ t.lines <:+ s.lines ∧ t.acks <:+ s.acks

/-- 20_memory.md R59, from R56 and R120: over a run in which no step is a `str` to address `a`, the word at `a` stays as it
is. -/
def Obligations.MemoryHoldsLastStore : Prop :=
  ∀ (n : Nat) (s t : State) (a : Nat),
    (∀ k u, k < n → core.run k s = .next u → u.storesTo a = false) → core.run n s = .next t →
    t.memRead a = s.memRead a

/-- 40_cycle.md R125 to R128, R130, 10_state.md R40, 60_exceptions.md R239 (decisions D7, D13, D17): `run()` with no fault
latched sets Running, from Suspended and from Halting alike, steps until `ended` first holds, and returns Ok, or the fault if
one is latched there. The run ends halted, exhausted while Running, or faulted; an empty ROM ends at once; a Suspended block
is at no run's end. The first clause says the same of the loop alone, from any run state. -/
def Obligations.RunIsRepeatedStep : Prop :=
  ∀ (fuel : Nat) (s t : State),
    (State.runLoop fuel s = some t ↔ ∃ k, k ≤ fuel ∧ s.EndsAfter k t) ∧
    (s.fault.valid = false →
      (∀ r, s.runBlock fuel = some (t, r) ↔
        (∃ k, k ≤ fuel ∧ State.EndsAfter { s with run := .running } k t) ∧
          r = if t.fault.valid then .fault t.fault else .ok) ∧
      (∀ r, s.runBlock fuel = some (t, r) →
        (t.fault.valid = true ∧ t.runEnd = some .faulted) ∨
        (t.fault.valid = false ∧ t.run = .halting ∧ t.runEnd = some .halted) ∨
        (t.fault.valid = false ∧ t.run = .running ∧ t.rom.length ≤ t.pc ∧ t.runEnd = some .exhausted)) ∧
      (s.rom = [] → s.runBlock fuel = some ({ s with run := .running }, .ok)) ∧
      (s.run = .suspended → s.runEnd = none))

/-- 70_reset_and_hazards.md R250, R251, 10_state.md R37 (decisions D5, D8): what construction leaves; the latch fields but
`valid` are not the spec's and not stated. -/
def Obligations.ConstructionState : Prop :=
  ∀ c : Config,
    (∀ r, (State.constructWith c).readReg r = 0) ∧ (∀ a, (State.constructWith c).memRead a = 0) ∧
    (State.constructWith c).rom = [] ∧ (State.constructWith c).run = .suspended ∧
    (State.constructWith c).pc = 0 ∧ (State.constructWith c).fault.valid = false ∧
    State.reset.cfg.wordBits = 64 ∧ State.reset.cfg.memWords = 65536 ∧ State.reset.cfg.overflow = .fault

/-- 70_reset_and_hazards.md R252 (decisions D6, D20): what a load changes and what it keeps, what it refuses, and that a raw
byte program is its words in big-endian order. That a load keeps the console channels too is the model's choice
(notes/assumptions/16.md). -/
def Obligations.LoadEffects : Prop :=
  ∀ s : State,
    (∀ words : List InsnWord, words.length ≤ 2 ^ s.cfg.wordBits →
      ∃ t, s.load words = .ok t ∧ t.rom = words ∧ t.pc = 0 ∧ t.run = .suspended ∧ t.fault.valid = false ∧
        t.regs = s.regs ∧ t.mem = s.mem ∧ t.cfg = s.cfg ∧ t.lines = s.lines ∧ t.acks = s.acks ∧
        t.output = s.output) ∧
    (∀ words : List InsnWord, 2 ^ s.cfg.wordBits < words.length → s.load words = .error .tooLong) ∧
    (∀ words : List InsnWord, s.loadBytes (words.flatMap bytesOfWord) = s.load words) ∧
    (∀ bytes : List Byte, bytes.length % 4 ≠ 0 → s.loadBytes bytes = .error .partialInstruction)

/-! ### Text -/

/-- 45_io.md R213 (decisions D21, D22): the decimal text of a number is ASCII digits without leading zeros, and it parses
back, with leading zeros and white space around it, exactly when the number is a word. Which characters are white space is
PRESUMED (notes/assumptions/13.md). -/
def Obligations.DecimalTextParses : Prop :=
  ∀ (v maxWord zeros : Nat) (before after : Text),
    before.all isWhite = true → after.all isWhite = true →
    decimal v ≠ [] ∧ (decimal v).all isAsciiDigit = true ∧ ((decimal v).head? = some '0' → v = 0) ∧
    parseUnsigned maxWord (before ++ List.replicate zeros '0' ++ decimal v ++ after) =
      if v ≤ maxWord then some v else none

/-- 30_encoding.md R100: the assembler's worked examples of the source. -/
def Obligations.AssemblerExamples : Prop :=
  (assembleLine ['h', 'l', 't']).map bytesOfWord = .ok [0x00, 0x00, 0x00, 0x00] ∧
  (assembleLine ['l', 'd', 'r', ' ', '0', ' ', '1']).map bytesOfWord = .ok [0x01, 0x80, 0x81, 0x00] ∧
  (assembleLine ['a', 'd', 'd', ' ', '0', ' ', '1', ' ', '2']).map bytesOfWord = .ok [0x20, 0x80, 0x81, 0x82]

/-- 30_encoding.md R92, R93 (decision D23): an operand's byte is the mode's flag OR the number, with no range check below
256, leading zeros allowed; a larger number is malformed, whatever follows its digits. That the failing step's remainder is
the text it was given is the model's choice (notes/assumptions/14.md). -/
def Obligations.OperandTextEncodes : Prop :=
  ∀ (n zeros : Nat) (rest : Text),
    let digits := List.replicate zeros '0' ++ decimal n
    (n ≤ 255 →
      parseOperand (digits ++ 'i' :: rest) = .ok (0x80#8 ||| BitVec.ofNat 8 n, rest) ∧
      parseOperand (digits ++ 'r' :: rest) = .ok (0x10#8 ||| BitVec.ofNat 8 n, rest) ∧
      parseOperand (digits ++ 'o' :: rest) = .ok (0x40#8 ||| BitVec.ofNat 8 n, rest) ∧
      parseOperand (digits ++ ' ' :: rest) = .ok (0x80#8 ||| BitVec.ofNat 8 n, ' ' :: rest) ∧
      parseOperand digits = .ok (0x80#8 ||| BitVec.ofNat 8 n, [])) ∧
    (255 < n → (∀ c, rest.head? = some c → isAsciiDigit c = false) →
      parseOperand (digits ++ rest) = .error (digits ++ rest))

/-- 30_encoding.md R106: the text of every operand byte, by its mode. -/
def Obligations.RenderedOperands : Prop :=
  ∀ b : Byte,
    (0x80 ≤ b.toNat → renderOperand b = decimal (b.toNat % 128) ++ ['i']) ∧
    (0x40 ≤ b.toNat ∧ b.toNat ≤ 0x7F → renderOperand b = decimal (b.toNat % 64) ++ ['o']) ∧
    (0x10 ≤ b.toNat ∧ b.toNat ≤ 0x3F → renderOperand b = decimal (b.toNat % 16) ++ ['r']) ∧
    (b.toNat ≤ 0x0F → renderOperand b = decimal (b.toNat % 16) ++ ['i'])

/-- 30_encoding.md R108, from R92, R93, R106 and R107 (decision D26): disassembling a word that assembly text can give and
assembling the text again gives the word back, but for the register bytes 0x20 to 0x3F, which come back as bytes that
resolve identically. -/
def Obligations.ReassemblyIsIdentical : Prop :=
  assembleLine (disassemble 0x00000000#32) = .ok 0x00000000#32 ∧
  (∀ (o : Opcode) (d a b : Byte),
    o ≠ .hlt → 0x10 ≤ d.toNat → 0x10 ≤ a.toNat → (b = 0x00#8 ∨ 0x10 ≤ b.toNat) →
    assembleLine (disassemble (packWord o.code d a b)) =
      .ok (packWord o.code (reassembledByte d) (reassembledByte a) (reassembledByte b))) ∧
  ∀ (b : Byte) (s : State), s.resolve (decodeOperand (reassembledByte b)) = s.resolve (decodeOperand b)
end

