-- ==== Sys2Proof/Laws/State.lean ====
section
/-!
SUPPORT. One lemma per field per update of the state, true by definition, so that no later proof unfolds an update.
-/

namespace Sys2Proof.Machine

/-! ### writeReg -/

@[simp] theorem State.writeReg_cfg (s : State) (i : RegIndex) (v : Nat) : (s.writeReg i v).cfg = s.cfg := rfl

@[simp] theorem State.writeReg_regs (s : State) (i : RegIndex) (v : Nat) :
    (s.writeReg i v).regs =
      s.regs.set i v := rfl

@[simp] theorem State.writeReg_pc (s : State) (i : RegIndex) (v : Nat) : (s.writeReg i v).pc = s.pc := rfl

@[simp] theorem State.writeReg_run (s : State) (i : RegIndex) (v : Nat) : (s.writeReg i v).run = s.run := rfl

@[simp] theorem State.writeReg_fault (s : State) (i : RegIndex) (v : Nat) : (s.writeReg i v).fault = s.fault := rfl

@[simp] theorem State.writeReg_rom (s : State) (i : RegIndex) (v : Nat) : (s.writeReg i v).rom = s.rom := rfl

@[simp] theorem State.writeReg_mem (s : State) (i : RegIndex) (v : Nat) : (s.writeReg i v).mem = s.mem := rfl

@[simp] theorem State.writeReg_lines (s : State) (i : RegIndex) (v : Nat) : (s.writeReg i v).lines = s.lines := rfl

@[simp] theorem State.writeReg_acks (s : State) (i : RegIndex) (v : Nat) : (s.writeReg i v).acks = s.acks := rfl

@[simp] theorem State.writeReg_output (s : State) (i : RegIndex) (v : Nat) :
    (s.writeReg i v).output =
      s.output := rfl

@[simp] theorem State.writeReg_draws (s : State) (i : RegIndex) (v : Nat) : (s.writeReg i v).draws = s.draws := rfl

/-! ### memWrite -/

@[simp] theorem State.memWrite_cfg (s : State) (a : Nat) (v : Nat) : (s.memWrite a v).cfg = s.cfg := rfl

@[simp] theorem State.memWrite_regs (s : State) (a : Nat) (v : Nat) : (s.memWrite a v).regs = s.regs := rfl

@[simp] theorem State.memWrite_pc (s : State) (a : Nat) (v : Nat) : (s.memWrite a v).pc = s.pc := rfl

@[simp] theorem State.memWrite_run (s : State) (a : Nat) (v : Nat) : (s.memWrite a v).run = s.run := rfl

@[simp] theorem State.memWrite_fault (s : State) (a : Nat) (v : Nat) : (s.memWrite a v).fault = s.fault := rfl

@[simp] theorem State.memWrite_rom (s : State) (a : Nat) (v : Nat) : (s.memWrite a v).rom = s.rom := rfl

@[simp] theorem State.memWrite_mem (s : State) (a : Nat) (v : Nat) : (s.memWrite a v).mem = s.mem.write a v := rfl

@[simp] theorem State.memWrite_lines (s : State) (a : Nat) (v : Nat) : (s.memWrite a v).lines = s.lines := rfl

@[simp] theorem State.memWrite_acks (s : State) (a : Nat) (v : Nat) : (s.memWrite a v).acks = s.acks := rfl

@[simp] theorem State.memWrite_output (s : State) (a : Nat) (v : Nat) : (s.memWrite a v).output = s.output := rfl

@[simp] theorem State.memWrite_draws (s : State) (a : Nat) (v : Nat) : (s.memWrite a v).draws = s.draws := rfl

/-! ### takeFault -/

@[simp] theorem State.takeFault_cfg (s : State) (r : Raised) : (s.takeFault r).cfg = s.cfg := rfl

@[simp] theorem State.takeFault_regs (s : State) (r : Raised) : (s.takeFault r).regs = s.regs := rfl

@[simp] theorem State.takeFault_pc (s : State) (r : Raised) : (s.takeFault r).pc = s.pc := rfl

@[simp] theorem State.takeFault_run (s : State) (r : Raised) : (s.takeFault r).run = s.run := rfl

@[simp] theorem State.takeFault_fault (s : State) (r : Raised) :
    (s.takeFault r).fault =
      { valid := true, cause := r.kind.cause, sub := r.kind.sub, fpc := s.pc, fword := s.currentWord, info := r.info } := rfl

@[simp] theorem State.takeFault_rom (s : State) (r : Raised) : (s.takeFault r).rom = s.rom := rfl

@[simp] theorem State.takeFault_mem (s : State) (r : Raised) : (s.takeFault r).mem = s.mem := rfl

@[simp] theorem State.takeFault_lines (s : State) (r : Raised) : (s.takeFault r).lines = s.lines := rfl

@[simp] theorem State.takeFault_acks (s : State) (r : Raised) : (s.takeFault r).acks = s.acks := rfl

@[simp] theorem State.takeFault_output (s : State) (r : Raised) : (s.takeFault r).output = s.output := rfl

@[simp] theorem State.takeFault_draws (s : State) (r : Raised) : (s.takeFault r).draws = s.draws := rfl

/-! ### clearFault -/

@[simp] theorem State.clearFault_cfg (s : State) : (s.clearFault).cfg = s.cfg := rfl

@[simp] theorem State.clearFault_regs (s : State) : (s.clearFault).regs = s.regs := rfl

@[simp] theorem State.clearFault_pc (s : State) : (s.clearFault).pc = s.pc := rfl

@[simp] theorem State.clearFault_run (s : State) : (s.clearFault).run = s.run := rfl

@[simp] theorem State.clearFault_rom (s : State) : (s.clearFault).rom = s.rom := rfl

@[simp] theorem State.clearFault_mem (s : State) : (s.clearFault).mem = s.mem := rfl

@[simp] theorem State.clearFault_lines (s : State) : (s.clearFault).lines = s.lines := rfl

@[simp] theorem State.clearFault_acks (s : State) : (s.clearFault).acks = s.acks := rfl

@[simp] theorem State.clearFault_output (s : State) : (s.clearFault).output = s.output := rfl

@[simp] theorem State.clearFault_draws (s : State) : (s.clearFault).draws = s.draws + 1 := rfl

/-! ### commit -/

@[simp] theorem State.commit_cfg (s : State) (e : Effect) : (s.commit e).cfg = s.cfg := rfl

@[simp] theorem State.commit_regs (s : State) (e : Effect) :
    (s.commit e).regs =
      match e.reg with | some (i, v) => s.regs.set i v | none => s.regs := rfl

@[simp] theorem State.commit_pc (s : State) (e : Effect) : (s.commit e).pc = e.nextPc + 1 := rfl

@[simp] theorem State.commit_run (s : State) (e : Effect) :
    (s.commit e).run =
      if e.halt then .halting else s.run := rfl

@[simp] theorem State.commit_fault (s : State) (e : Effect) : (s.commit e).fault = s.fault := rfl

@[simp] theorem State.commit_rom (s : State) (e : Effect) : (s.commit e).rom = s.rom := rfl

@[simp] theorem State.commit_mem (s : State) (e : Effect) :
    (s.commit e).mem =
      match e.mem with | some (a, v) => s.mem.write a v | none => s.mem := rfl

@[simp] theorem State.commit_lines (s : State) (e : Effect) : (s.commit e).lines = s.lines := rfl

@[simp] theorem State.commit_acks (s : State) (e : Effect) : (s.commit e).acks = s.acks := rfl

@[simp] theorem State.commit_output (s : State) (e : Effect) :
    (s.commit e).output =
      match e.out with | some t => s.output ++ [t] | none => s.output := rfl

@[simp] theorem State.commit_draws (s : State) (e : Effect) : (s.commit e).draws = s.draws := rfl

/-! ### placeWord -/

@[simp] theorem State.placeWord_cfg (s : State) (w : InsnWord) : (s.placeWord w).cfg = s.cfg := rfl

@[simp] theorem State.placeWord_regs (s : State) (w : InsnWord) : (s.placeWord w).regs = s.regs := rfl

@[simp] theorem State.placeWord_pc (s : State) (w : InsnWord) : (s.placeWord w).pc = s.pc := rfl

@[simp] theorem State.placeWord_run (s : State) (w : InsnWord) : (s.placeWord w).run = .running := rfl

@[simp] theorem State.placeWord_fault (s : State) (w : InsnWord) :
    (s.placeWord w).fault =
      { s.fault with valid := false } := rfl

@[simp] theorem State.placeWord_mem (s : State) (w : InsnWord) : (s.placeWord w).mem = s.mem := rfl

@[simp] theorem State.placeWord_lines (s : State) (w : InsnWord) : (s.placeWord w).lines = s.lines := rfl

@[simp] theorem State.placeWord_acks (s : State) (w : InsnWord) : (s.placeWord w).acks = s.acks := rfl

@[simp] theorem State.placeWord_output (s : State) (w : InsnWord) : (s.placeWord w).output = s.output := rfl

@[simp] theorem State.placeWord_draws (s : State) (w : InsnWord) : (s.placeWord w).draws = s.draws := rfl

/-! ### withFetchWord -/

@[simp] theorem State.withFetchWord_cfg (s : State) (nbits w : Nat) : (s.withFetchWord nbits w).cfg = s.cfg := rfl

@[simp] theorem State.withFetchWord_regs (s : State) (nbits w : Nat) : (s.withFetchWord nbits w).regs = s.regs := rfl

@[simp] theorem State.withFetchWord_pc (s : State) (nbits w : Nat) : (s.withFetchWord nbits w).pc = s.pc := rfl

@[simp] theorem State.withFetchWord_run (s : State) (nbits w : Nat) : (s.withFetchWord nbits w).run = .running := rfl

@[simp] theorem State.withFetchWord_fault (s : State) (nbits w : Nat) :
    (s.withFetchWord nbits w).fault =
      { s.fault with valid := false } := rfl

@[simp] theorem State.withFetchWord_mem (s : State) (nbits w : Nat) : (s.withFetchWord nbits w).mem = s.mem := rfl

@[simp] theorem State.withFetchWord_lines (s : State) (nbits w : Nat) :
    (s.withFetchWord nbits w).lines =
      s.lines := rfl

@[simp] theorem State.withFetchWord_acks (s : State) (nbits w : Nat) : (s.withFetchWord nbits w).acks = s.acks := rfl

@[simp] theorem State.withFetchWord_output (s : State) (nbits w : Nat) :
    (s.withFetchWord nbits w).output =
      s.output := rfl

@[simp] theorem State.withFetchWord_draws (s : State) (nbits w : Nat) :
    (s.withFetchWord nbits w).draws =
      s.draws := rfl

/-! ### construct -/

@[simp] theorem State.construct_cfg (s : State) : (s.construct).cfg = s.cfg := rfl

/-! ### answerRead -/

@[simp] theorem State.answerRead_cfg (s : State) (x : LineAnswer) : (s.answerRead x).cfg = s.cfg := rfl

@[simp] theorem State.answerRead_regs (s : State) (x : LineAnswer) : (s.answerRead x).regs = s.regs := rfl

@[simp] theorem State.answerRead_pc (s : State) (x : LineAnswer) : (s.answerRead x).pc = s.pc := rfl

@[simp] theorem State.answerRead_run (s : State) (x : LineAnswer) : (s.answerRead x).run = s.run := rfl

@[simp] theorem State.answerRead_fault (s : State) (x : LineAnswer) : (s.answerRead x).fault = s.fault := rfl

@[simp] theorem State.answerRead_rom (s : State) (x : LineAnswer) : (s.answerRead x).rom = s.rom := rfl

@[simp] theorem State.answerRead_mem (s : State) (x : LineAnswer) : (s.answerRead x).mem = s.mem := rfl

@[simp] theorem State.answerRead_lines (s : State) (x : LineAnswer) : (s.answerRead x).lines = s.lines ++ [x] := rfl

@[simp] theorem State.answerRead_acks (s : State) (x : LineAnswer) : (s.answerRead x).acks = s.acks := rfl

@[simp] theorem State.answerRead_output (s : State) (x : LineAnswer) : (s.answerRead x).output = s.output := rfl

@[simp] theorem State.answerRead_draws (s : State) (x : LineAnswer) : (s.answerRead x).draws = s.draws := rfl

/-! ### answerWrite -/

@[simp] theorem State.answerWrite_cfg (s : State) (x : WriteAnswer) : (s.answerWrite x).cfg = s.cfg := rfl

@[simp] theorem State.answerWrite_regs (s : State) (x : WriteAnswer) : (s.answerWrite x).regs = s.regs := rfl

@[simp] theorem State.answerWrite_pc (s : State) (x : WriteAnswer) : (s.answerWrite x).pc = s.pc := rfl

@[simp] theorem State.answerWrite_run (s : State) (x : WriteAnswer) : (s.answerWrite x).run = s.run := rfl

@[simp] theorem State.answerWrite_fault (s : State) (x : WriteAnswer) : (s.answerWrite x).fault = s.fault := rfl

@[simp] theorem State.answerWrite_rom (s : State) (x : WriteAnswer) : (s.answerWrite x).rom = s.rom := rfl

@[simp] theorem State.answerWrite_mem (s : State) (x : WriteAnswer) : (s.answerWrite x).mem = s.mem := rfl

@[simp] theorem State.answerWrite_lines (s : State) (x : WriteAnswer) : (s.answerWrite x).lines = s.lines := rfl

@[simp] theorem State.answerWrite_acks (s : State) (x : WriteAnswer) : (s.answerWrite x).acks = s.acks ++ [x] := rfl

@[simp] theorem State.answerWrite_output (s : State) (x : WriteAnswer) : (s.answerWrite x).output = s.output := rfl

@[simp] theorem State.answerWrite_draws (s : State) (x : WriteAnswer) : (s.answerWrite x).draws = s.draws := rfl

@[simp] theorem State.clearFault_valid (s : State) : s.clearFault.fault.valid = false := rfl

/-! ### The range of a word depends on the configuration alone -/

theorem State.modulus_pos (s : State) : 0 < s.modulus := Nat.two_pow_pos _

theorem State.le_maxWord_iff (s : State) (v : Nat) : v ≤ s.maxWord ↔ v < s.modulus := by
  have := s.modulus_pos
  unfold State.maxWord
  omega

theorem State.modulus_congr {s t : State} (h : t.cfg = s.cfg) : t.modulus = s.modulus := by
  simp only [State.modulus, h]

theorem State.maxWord_congr {s t : State} (h : t.cfg = s.cfg) : t.maxWord = s.maxWord := by
  simp only [State.maxWord, State.modulus_congr h]

@[simp] theorem State.writeReg_read_same (s : State) (i : RegIndex) (v : Nat) : (s.writeReg i v).readReg i = v := by
  simp [State.readReg, State.writeReg]

theorem State.writeReg_read_other (s : State) {i j : RegIndex} (v : Nat) (h : i ≠ j) :
    (s.writeReg i v).readReg j = s.readReg j := by
  have : i.val ≠ j.val := fun e => h (Fin.ext e)
  simp [State.readReg, State.writeReg, Vector.getElem_set_ne, this]

end Sys2Proof.Machine
end

