-- ==== Sys2Proof/Laws/Memory.lean ====
section
/-!
SUPPORT. Data memory: reads after writes, and the canonical form, which every memory operation keeps.
-/

namespace Sys2Proof.Machine

theorem Memory.read_nil (a : Nat) : Memory.read [] a = Memory.unlisted := rfl

/-- An address below every listed one reads as unlisted. -/
theorem Memory.read_of_all_lt {m : Memory} {a : Nat} (h : m.all (fun c => decide (a < c.1)) = true) :
    m.read a = Memory.unlisted := by
  induction m with
  | nil => rfl
  | cons c rest ih =>
    obtain ⟨b, w⟩ := c
    simp only [List.all_cons, Bool.and_eq_true, decide_eq_true_eq] at h
    simp only [Memory.read]
    rw [if_neg (by omega), ih h.2]

/-- Every cell after a write is the cell written or one that was there. -/
theorem Memory.mem_write {m : Memory} {a : Nat} {v : Nat} {c : Nat × Nat} (h : c ∈ m.write a v) :
    c = (a, v) ∨ c ∈ m := by
  induction m with
  | nil =>
    simp only [Memory.write] at h
    split at h <;> simp_all
  | cons d rest ih =>
    obtain ⟨b, w⟩ := d
    simp only [Memory.write] at h
    split at h
    · split at h
      · exact .inr h
      · exact List.mem_cons.mp h
    · split at h
      · split at h
        · exact .inr (List.mem_cons_of_mem _ h)
        · rcases List.mem_cons.mp h with rfl | h
          · exact .inl rfl
          · exact .inr (List.mem_cons_of_mem _ h)
      · rcases List.mem_cons.mp h with rfl | h
        · exact .inr List.mem_cons_self
        · exact (ih h).imp id (List.mem_cons_of_mem _)

/-- A bound below every listed address stays one after a write above it. -/
theorem Memory.write_all_lt {m : Memory} {a b : Nat} {v : Nat} (hb : b < a)
    (h : m.all (fun c => decide (b < c.1)) = true) : (m.write a v).all (fun c => decide (b < c.1)) = true := by
  simp only [List.all_eq_true, decide_eq_true_eq] at h ⊢
  intro c hc
  rcases Memory.mem_write hc with rfl | hc
  · exact hb
  · exact h c hc

/-- A write keeps the canonical form. -/
theorem Memory.wf_write {m : Memory} (h : m.wf = true) (a : Nat) (v : Nat) : (m.write a v).wf = true := by
  induction m with
  | nil => simp only [Memory.write]; split <;> simp_all [Memory.wf]
  | cons c rest ih =>
    obtain ⟨b, w⟩ := c
    simp only [Memory.wf, Bool.and_eq_true, bne_iff_ne, ne_eq] at h
    obtain ⟨⟨hw, hall⟩, hrest⟩ := h
    simp only [Memory.write]
    split
    · rename_i hlt
      split
      · simp [Memory.wf, hw, hall, hrest]
      · rename_i hv
        have : rest.all (fun c => decide (a < c.1)) = true := by
          simp only [List.all_eq_true, decide_eq_true_eq] at hall ⊢
          exact fun c hc => lt_trans hlt (hall c hc)
        simp [Memory.wf, hv, hw, hall, hrest, hlt, this]
    · split
      · rename_i hlt heq
        subst heq
        split
        · exact hrest
        · rename_i hv
          simp [Memory.wf, hv, hall, hrest]
      · rename_i hlt hne
        have hall' := Memory.write_all_lt (a := a) (v := v) (show b < a by omega) hall
        simp [Memory.wf, hw, ih hrest, hall']

/-- Reading the address just written gives the value written. -/
theorem Memory.read_write_same {m : Memory} (h : m.wf = true) (a : Nat) (v : Nat) : (m.write a v).read a = v := by
  induction m with
  | nil => simp only [Memory.write]; split <;> simp_all [Memory.read]
  | cons c rest ih =>
    obtain ⟨b, w⟩ := c
    simp only [Memory.wf, Bool.and_eq_true, bne_iff_ne, ne_eq] at h
    obtain ⟨⟨hw, hall⟩, hrest⟩ := h
    simp only [Memory.write]
    split
    · rename_i hlt
      split
      · rename_i hv
        have : ((b, w) :: rest : Memory).all (fun c => decide (a < c.1)) = true := by
          simp only [List.all_eq_true, decide_eq_true_eq] at hall
          simp only [List.all_cons, Bool.and_eq_true, decide_eq_true_eq, List.all_eq_true]
          exact ⟨hlt, fun c hc => lt_trans hlt (hall c hc)⟩
        rw [Memory.read_of_all_lt this, hv]
      · simp [Memory.read]
    · split
      · rename_i hlt heq
        subst heq
        split
        · rename_i hv
          rw [Memory.read_of_all_lt hall, hv]
        · simp [Memory.read]
      · rename_i hlt hne
        simp only [Memory.read]
        rw [if_neg hne, ih hrest]

/-- Every other address reads as before. -/
theorem Memory.read_write_other (m : Memory) {a b : Nat} (v : Nat) (h : b ≠ a) :
    (m.write a v).read b = m.read b := by
  induction m with
  | nil => simp only [Memory.write]; split <;> simp [Memory.read, h]
  | cons c rest ih =>
    obtain ⟨d, w⟩ := c
    simp only [Memory.write]
    split
    · split
      · rfl
      · simp [Memory.read, h]
    · split
      · rename_i heq
        subst heq
        split <;> simp [Memory.read, h]
      · simp [Memory.read, ih]

/-- A write of an existing address and a word keeps the ranges. -/
theorem Memory.inRange_write {m : Memory} {n : Nat} {w : Nat} (h : m.inRange n w = true) {a : Nat} {v : Nat}
    (ha : a < n) (hv : v ≤ w) : (m.write a v).inRange n w = true := by
  simp only [Memory.inRange, List.all_eq_true, Bool.and_eq_true, decide_eq_true_eq] at h ⊢
  intro c hc
  rcases Memory.mem_write hc with rfl | hc
  · exact ⟨ha, hv⟩
  · exact h c hc

/-- A listed word is in range, and so is what an unlisted address reads as. -/
theorem Memory.read_le {m : Memory} {n : Nat} {w : Nat} (h : m.inRange n w = true) (a : Nat) : m.read a ≤ w := by
  induction m with
  | nil => exact Nat.zero_le _
  | cons c rest ih =>
    obtain ⟨b, u⟩ := c
    simp only [Memory.inRange, List.all_cons, Bool.and_eq_true, decide_eq_true_eq] at h ih
    simp only [Memory.read]
    split
    · exact h.1.2
    · exact ih h.2

/-- The memory of the state after construction has the canonical form. -/
theorem State.constructWith_mem_wf (c : Config) : (State.constructWith c).mem.wf = true := rfl

/-- `MemWrite` keeps the canonical form. -/
theorem State.memWrite_wf {s : State} (h : s.mem.wf = true) (a : Nat) (v : Nat) : (s.memWrite a v).mem.wf = true :=
  Memory.wf_write h a v

/-- The commit of an instruction keeps the canonical form. -/
theorem State.commit_wf {s : State} (h : s.mem.wf = true) (e : Effect) : (s.commit e).mem.wf = true := by
  rw [State.commit_mem]
  split
  · exact Memory.wf_write h _ _
  · exact h

end Sys2Proof.Machine
end

