-- ==== Sys2Proof/Laws/Ops.lean ====
section
/-!
SUPPORT. One lemma per case of each shared operation, and inversion lemmas that say everything an operation can do.
-/

namespace Sys2Proof.Machine

/-! ### Checks (00_scope.md R11) -/

theorem checkReg_of_lt {i : Nat} (h : i < 16) : checkReg i = .ok ⟨i, h⟩ := dif_pos h

theorem checkReg_of_le {i : Nat} (h : 16 ≤ i) : checkReg i = .error { kind := .register, info := i } :=
  dif_neg (by omega)

theorem checkReg_eq_ok {i : Nat} {r : RegIndex} : checkReg i = .ok r ↔ i = r.val := by
  unfold checkReg
  split
  · rename_i h
    constructor
    · intro e; injection e with e; rw [← e]
    · intro e; congr
  · rename_i h
    constructor
    · intro e; cases e
    · intro e; exact absurd (e ▸ r.isLt) h

theorem checkReg_eq_error {i : Nat} {f : Raised} :
    checkReg i = .error f ↔ 16 ≤ i ∧ f = { kind := .register, info := i } := by
  unfold checkReg
  split
  · rename_i h
    constructor
    · intro e; cases e
    · intro e; omega
  · rename_i h
    constructor
    · intro e; injection e with e; exact ⟨by omega, e.symm⟩
    · intro e; rw [e.2]

theorem State.checkMem_of_lt {s : State} {a : Nat} (h : a < s.cfg.memWords) : s.checkMem a = .ok a := if_pos h

theorem State.checkMem_of_le {s : State} {a : Nat} (h : s.cfg.memWords ≤ a) :
    s.checkMem a = .error { kind := .memory, info := a } := if_neg (by omega)

theorem State.checkMem_eq_ok {s : State} {a : Nat} {b : Nat} :
    s.checkMem a = .ok b ↔ a = b ∧ a < s.cfg.memWords := by
  unfold State.checkMem
  split
  · rename_i h
    constructor
    · intro e; injection e with e; exact ⟨e, h⟩
    · intro e; rw [e.1]
  · rename_i h
    constructor
    · intro e; cases e
    · intro e; exact absurd e.2 h

theorem State.checkMem_eq_error {s : State} {a : Nat} {f : Raised} :
    s.checkMem a = .error f ↔ s.cfg.memWords ≤ a ∧ f = { kind := .memory, info := a } := by
  unfold State.checkMem
  split
  · rename_i h
    constructor
    · intro e; cases e
    · intro e; omega
  · rename_i h
    constructor
    · intro e; injection e with e; exact ⟨by omega, e.symm⟩
    · intro e; rw [e.2]

/-! ### Operand resolution (30_encoding.md R76, R77) -/

theorem State.offset_of_le {s : State} {v : Nat} (h : s.pc + v ≤ s.maxWord) : s.offset v = .ok (s.pc + v) :=
  if_neg (by omega)

theorem State.offset_of_lt {s : State} {v : Nat} (h : s.maxWord < s.pc + v) :
    s.offset v = .error { kind := .operand, info := (s.pc + v) % s.modulus } := if_pos h

@[simp] theorem State.resolve_imm (s : State) (v : BitVec 7) : s.resolve (.imm v) = .ok v.toNat := rfl

@[simp] theorem State.resolve_off (s : State) (v : BitVec 6) : s.resolve (.off v) = s.offset v.toNat := rfl

@[simp] theorem State.resolve_reg (s : State) (mm : BitVec 2) (r : BitVec 4) :
    s.resolve (.reg mm r) = .ok (s.readReg (regOfField r)) := rfl

@[simp] theorem State.resolve_narrow (s : State) (v : BitVec 4) : s.resolve (.narrow v) = .ok v.toNat := rfl

/-- The only fault of resolution is OutOfBounds(Operand) (30_encoding.md R77). -/
theorem State.resolve_eq_error {s : State} {o : Operand} {f : Raised} (h : s.resolve o = .error f) :
    ∃ v : BitVec 6, o = .off v ∧ s.maxWord < s.pc + v.toNat ∧
      f = { kind := .operand, info := (s.pc + v.toNat) % s.modulus } := by
  cases o with
  | off v =>
    simp only [State.resolve, State.offset] at h
    split at h
    · rename_i hlt; injection h with h; exact ⟨v, rfl, hlt, h.symm⟩
    · cases h
  | imm v => cases h
  | reg mm r => cases h
  | narrow v => cases h

theorem State.resolveAll_of_ok {s : State} {d a b : Operand} {vd v1 v2 : Nat} (hd : s.resolve d = .ok vd)
    (ha : s.resolve a = .ok v1) (hb : s.resolve b = .ok v2) :
    s.resolveAll d a b = .ok { vd := vd, v1 := v1, v2 := v2 } := by
  simp only [State.resolveAll, hd, ha, hb]; rfl

theorem State.resolveAll_of_dest {s : State} {d : Operand} (a b : Operand) {f : Raised} (h : s.resolve d = .error f) :
    s.resolveAll d a b = .error f := by
  simp only [State.resolveAll, h]; rfl

theorem State.resolveAll_of_op1 {s : State} {d a : Operand} (b : Operand) {vd : Nat} {f : Raised}
    (hd : s.resolve d = .ok vd) (h : s.resolve a = .error f) : s.resolveAll d a b = .error f := by
  simp only [State.resolveAll, hd, h]; rfl

theorem State.resolveAll_of_op2 {s : State} {d a b : Operand} {vd v1 : Nat} {f : Raised}
    (hd : s.resolve d = .ok vd) (ha : s.resolve a = .ok v1) (h : s.resolve b = .error f) :
    s.resolveAll d a b = .error f := by
  simp only [State.resolveAll, hd, ha, h]; rfl

theorem State.resolveAll_eq_ok {s : State} {d a b : Operand} {v : Resolved} (h : s.resolveAll d a b = .ok v) :
    s.resolve d = .ok v.vd ∧ s.resolve a = .ok v.v1 ∧ s.resolve b = .ok v.v2 := by
  cases hd : s.resolve d with
  | error f => rw [State.resolveAll_of_dest a b hd] at h; cases h
  | ok vd =>
    cases ha : s.resolve a with
    | error f => rw [State.resolveAll_of_op1 b hd ha] at h; cases h
    | ok v1 =>
      cases hb : s.resolve b with
      | error f => rw [State.resolveAll_of_op2 hd ha hb] at h; cases h
      | ok v2 => rw [State.resolveAll_of_ok hd ha hb] at h; injection h with h; subst h; exact ⟨rfl, rfl, rfl⟩

theorem State.resolveAll_eq_error {s : State} {d a b : Operand} {f : Raised} (h : s.resolveAll d a b = .error f) :
    s.resolve d = .error f ∨ s.resolve a = .error f ∨ s.resolve b = .error f := by
  cases hd : s.resolve d with
  | error g => rw [State.resolveAll_of_dest a b hd] at h; injection h with h; subst h; exact .inl rfl
  | ok vd =>
    cases ha : s.resolve a with
    | error g => rw [State.resolveAll_of_op1 b hd ha] at h; injection h with h; subst h; exact .inr (.inl rfl)
    | ok v1 =>
      cases hb : s.resolve b with
      | error g => rw [State.resolveAll_of_op2 hd ha hb] at h; injection h with h; subst h; exact .inr (.inr rfl)
      | ok v2 => rw [State.resolveAll_of_ok hd ha hb] at h; cases h

/-! ### The end of an instruction (40_cycle.md R120, R121) -/

theorem State.finish_error (s : State) (f : Raised) : s.finish (.error f) = .next (s.takeFault f) := rfl

theorem State.finish_ok {s : State} {e : Effect} (h : e.nextPc + 1 ≤ s.maxWord) :
    s.finish (.ok e) = .next (s.commit e) := if_neg (by omega)

theorem State.finish_overflow {s : State} {e : Effect} (h : s.maxWord < e.nextPc + 1) :
    s.finish (.ok e) = .next (s.takeFault { kind := .pc, info := (e.nextPc + 1) % s.modulus }) := if_pos h

/-- Everything the end of an instruction can do. -/
theorem State.finish_cases (s : State) (r : Except Raised Effect) :
    (∃ f, r = .error f ∧ s.finish r = .next (s.takeFault f)) ∨
    (∃ e, r = .ok e ∧ s.maxWord < e.nextPc + 1 ∧
      s.finish r = .next (s.takeFault { kind := .pc, info := (e.nextPc + 1) % s.modulus })) ∨
    (∃ e, r = .ok e ∧ e.nextPc + 1 ≤ s.maxWord ∧ s.finish r = .next (s.commit e)) := by
  cases r with
  | error f => exact .inl ⟨f, rfl, rfl⟩
  | ok e =>
    by_cases h : s.maxWord < e.nextPc + 1
    · exact .inr (.inl ⟨e, rfl, h, State.finish_overflow h⟩)
    · exact .inr (.inr ⟨e, rfl, by omega, State.finish_ok (by omega)⟩)

/-- An instruction whose operands resolve ends as its rule says. -/
theorem State.perform_ok {s : State} {d a b : Operand} {vd v1 v2 : Nat} (rule : Resolved → Except Raised Effect)
    (hd : s.resolve d = .ok vd) (ha : s.resolve a = .ok v1) (hb : s.resolve b = .ok v2) :
    s.perform d a b rule = s.finish (rule { vd := vd, v1 := v1, v2 := v2 }) := by
  simp only [State.perform, State.resolveAll_of_ok hd ha hb]; rfl

/-- An instruction one of whose operands does not resolve faults with that operand's fault. -/
theorem State.perform_error {s : State} {d a b : Operand} {f : Raised} (rule : Resolved → Except Raised Effect)
    (h : s.resolveAll d a b = .error f) : s.perform d a b rule = .next (s.takeFault f) := by
  simp only [State.perform, h]; rfl

/-! ### ALU operations (43_arith.md) -/

theorem State.fit_of_le {s : State} {r : Int} (h0 : 0 ≤ r) (h : r ≤ (s.maxWord : Int)) : s.fit r = .ok r.toNat :=
  if_pos ⟨h0, h⟩

theorem State.fit_fault {s : State} {r : Int} (h : r < 0 ∨ (s.maxWord : Int) < r) (hp : s.cfg.overflow = .fault) :
    s.fit r = .error { kind := .overflow, info := 0 } := by
  unfold State.fit
  rw [if_neg (by omega), hp]

theorem State.fit_wrap {s : State} {r : Int} (h : r < 0 ∨ (s.maxWord : Int) < r) (hp : s.cfg.overflow = .wrap) :
    s.fit r = .ok (r % (s.modulus : Int)).toNat := by
  unfold State.fit
  rw [if_neg (by omega), hp]

/-- The range check of `add`, `sub` and `mul` passes under the policy `wrap`, and on a result that is a word. -/
theorem State.fit_passes {s : State} {r : Int} (h : s.cfg.overflow = .wrap ∨ (0 ≤ r ∧ r ≤ (s.maxWord : Int))) :
    ∃ v, s.fit r = .ok v := by
  by_cases hr : 0 ≤ r ∧ r ≤ (s.maxWord : Int)
  · exact ⟨_, State.fit_of_le hr.1 hr.2⟩
  · rcases h with hw | h
    · exact ⟨_, State.fit_wrap (by omega) hw⟩
    · exact absurd h hr

/-- The result of the width rule is a word. -/
theorem State.fit_le {s : State} {r : Int} {v : Nat} (h : s.fit r = .ok v) : v ≤ s.maxWord := by
  unfold State.fit at h
  split at h
  · rename_i hr; injection h with h; omega
  · split at h
    · cases h
    · injection h with h
      have hm : (0 : Int) < s.modulus := by exact_mod_cast s.modulus_pos
      have := Int.emod_lt_of_pos r hm
      have := Int.emod_nonneg r (ne_of_gt hm)
      rw [s.le_maxWord_iff]; omega

theorem State.fit_eq_error {s : State} {r : Int} {f : Raised} (h : s.fit r = .error f) :
    s.cfg.overflow = .fault ∧ f = { kind := .overflow, info := 0 } := by
  unfold State.fit at h
  split at h
  · cases h
  · split at h
    · rename_i hp; injection h with h; exact ⟨hp, h.symm⟩
    · cases h

theorem quotient_of_pos {v1 v2 : Nat} (h : v2 ≠ 0) : quotient v1 v2 = .ok (v1 / v2) := if_neg h

theorem quotient_zero (v1 : Nat) : quotient v1 0 = .error { kind := .divByZero, info := 0 } := rfl

theorem remainder_of_pos {v1 v2 : Nat} (h : v2 ≠ 0) : remainder v1 v2 = .ok (v1 - v2 * (v1 / v2)) := if_neg h

theorem remainder_zero (v1 : Nat) : remainder v1 0 = .error { kind := .modByZero, info := 0 } := rfl

theorem State.writeResult_of_lt {s : State} {vd : Nat} (r : Nat) (h : vd < 16) :
    s.writeResult vd r = .ok { nextPc := s.pc, reg := some (⟨vd, h⟩, r) } := by
  simp only [State.writeResult, checkReg_of_lt h]; rfl

theorem State.writeResult_of_le {s : State} {vd : Nat} (r : Nat) (h : 16 ≤ vd) :
    s.writeResult vd r = .error { kind := .register, info := vd } := by
  simp only [State.writeResult, checkReg_of_le h]; rfl

/-! ### Branches (42_branch.md) -/

theorem State.branchTarget_back {s : State} {vd : Nat} (h : vd ≤ s.pc) : s.branchTarget vd 0 = .ok (s.pc - vd) := by
  simp only [State.branchTarget, if_true]; exact if_neg (by omega)

theorem State.branchTarget_below {s : State} {vd : Nat} (h : s.pc < vd) :
    s.branchTarget vd 0 = .error { kind := .pc, info := vd } := by
  simp only [State.branchTarget, if_true]; exact if_pos h

theorem State.branchTarget_forward {s : State} (vd : Nat) {v2 : Nat} (h : v2 ≠ 0) :
    s.branchTarget vd v2 = .ok (s.pc + vd) := if_neg h

/-- A branch writes nothing but the pc. -/
theorem State.branch_eq_ok {s : State} {c : Bool} {v : Resolved} {e : Effect} (h : s.branch c v = .ok e) :
    e = { nextPc := e.nextPc } := by
  cases c with
  | false => simp only [State.branch] at h; cases h; rfl
  | true =>
    simp only [State.branch, if_true] at h
    cases ht : s.branchTarget v.vd v.v2 with
    | error f => rw [ht] at h; cases h
    | ok t => rw [ht] at h; cases h; rfl

/-! ### Fetch (40_cycle.md R120) -/

theorem State.enabled_iff (s : State) :
    s.enabled = true ↔ s.run = .running ∧ s.fault.valid = false ∧ s.pc < s.rom.length := by
  simp [State.enabled, and_assoc]

theorem State.fetch_of_enabled {s : State} (h : s.enabled = true) : s.fetch = s.rom[s.pc]? := if_pos h

theorem State.fetch_of_not_enabled {s : State} (h : s.enabled = false) : s.fetch = none := by
  simp [State.fetch, h]

theorem State.fetch_eq_some {s : State} {w : InsnWord} (h : s.fetch = some w) :
    s.run = .running ∧ s.fault.valid = false ∧ s.rom[s.pc]? = some w := by
  unfold State.fetch at h
  split at h
  · rename_i he
    have := (State.enabled_iff s).mp he
    exact ⟨this.1, this.2.1, h⟩
  · cases h

theorem State.currentWord_of_rom {s : State} {w : InsnWord} (h : s.rom[s.pc]? = some w) : s.currentWord = w := by
  simp [State.currentWord, h]

/-- The word placed is the word fetched. -/
theorem State.placeWord_fetch (s : State) (w : InsnWord) : (s.placeWord w).fetch = some w := by
  have hget : (s.placeWord w).rom[(s.placeWord w).pc]? = some w := by
    simp only [State.placeWord_pc]
    simp only [State.placeWord]
    have hlen : (s.rom.take s.pc ++ List.replicate (s.pc - s.rom.length) 0#32).length = s.pc := by
      simp only [List.length_append, List.length_take, List.length_replicate]
      omega
    rw [List.getElem?_append_right (by omega), hlen]
    simp
  have hen : (s.placeWord w).enabled = true := by
    rw [State.enabled_iff]
    refine ⟨rfl, rfl, ?_⟩
    exact (List.getElem?_eq_some_iff.mp hget).1
  rw [State.fetch_of_enabled hen, hget]

end Sys2Proof.Machine
end

