-- ==== Sys2Proof/Laws/Exec.lean ====
section
/-!
SUPPORT. What an instruction and a step can do, said once.
-/

namespace Sys2Proof.Machine

/-- The state differs from `s` at most in console answers that have been used, oldest first. -/
structure State.UsedAnswers (s s₁ : State) : Prop where
  same : s₁ = { s with lines := s₁.lines, acks := s₁.acks }
  lines : s₁.lines <:+ s.lines
  acks : s₁.acks <:+ s.acks

theorem State.UsedAnswers.refl (s : State) : s.UsedAnswers s := ⟨rfl, List.suffix_refl _, List.suffix_refl _⟩

/-- A console instruction that is asked for its register: everything it can answer. -/
theorem State.consoleReg_eq_error {s : State} {d a b : Operand} {f : Raised} (h : s.consoleReg d a b = .error f) :
    s.resolveAll d a b = .error f ∨ ∃ v, s.resolveAll d a b = .ok v ∧ checkReg v.vd = .error f := by
  cases hr : s.resolveAll d a b with
  | error g =>
    simp only [State.consoleReg, hr] at h
    cases h
    exact .inl rfl
  | ok v =>
    simp only [State.consoleReg, hr] at h
    exact .inr ⟨v, rfl, h⟩

theorem State.consoleReg_ok {s : State} {d a b : Operand} {vd v1 v2 : Nat} (hd : s.resolve d = .ok vd)
    (ha : s.resolve a = .ok v1) (hb : s.resolve b = .ok v2) : s.consoleReg d a b = checkReg vd := by
  simp only [State.consoleReg, State.resolveAll_of_ok hd ha hb]; rfl

/-- Everything `sti` can do. -/
theorem execSti_cases (d a b : Operand) (s : State) :
    (∃ f, s.consoleReg d a b = .error f ∧ execSti d a b s = .next (s.takeFault f)) ∨
    (∃ r, s.consoleReg d a b = .ok r ∧ s.lines = [] ∧ execSti d a b s = .next s) ∨
    (∃ r answer rest, s.consoleReg d a b = .ok r ∧ s.lines = answer :: rest ∧
      execSti d a b s = ({ s with lines := rest } : State).finish
        (s.numberFrom answer >>= fun n => pure { nextPc := s.pc, reg := some (r, n) })) := by
  unfold execSti
  cases hc : s.consoleReg d a b with
  | error f => exact .inl ⟨f, rfl, rfl⟩
  | ok r =>
    cases hl : s.lines with
    | nil => exact .inr (.inl ⟨r, rfl, rfl, by simp [State.readLine, hl]⟩)
    | cons answer rest =>
      refine .inr (.inr ⟨r, answer, rest, rfl, rfl, ?_⟩)
      simp only [State.readLine, hl]

/-- Everything `sto` can do. -/
theorem execSto_cases (d a b : Operand) (s : State) :
    (∃ f, s.consoleReg d a b = .error f ∧ execSto d a b s = .next (s.takeFault f)) ∨
    (∃ r, s.consoleReg d a b = .ok r ∧ s.acks = [] ∧ execSto d a b s = .next s) ∨
    (∃ r rest, s.consoleReg d a b = .ok r ∧ s.acks = .ok :: rest ∧
      execSto d a b s = ({ s with acks := rest } : State).finish
        (.ok { nextPc := s.pc, out := some (decimal (s.readReg r)) })) ∨
    (∃ r rest, s.consoleReg d a b = .ok r ∧ s.acks = .fail :: rest ∧
      execSto d a b s = ({ s with acks := rest } : State).finish (.error { kind := .write, info := 0 })) := by
  unfold execSto
  cases hc : s.consoleReg d a b with
  | error f => exact .inl ⟨f, rfl, rfl⟩
  | ok r =>
    cases hl : s.acks with
    | nil => exact .inr (.inl ⟨r, rfl, rfl, by simp [State.writeAnswer, hl]⟩)
    | cons answer rest =>
      cases answer with
      | ok => exact .inr (.inr (.inl ⟨r, rest, rfl, rfl, by simp [State.writeAnswer, hl]⟩))
      | fail => exact .inr (.inr (.inr ⟨r, rest, rfl, rfl, by simp [State.writeAnswer, hl]⟩))

/-- Everything an instruction can do: wait for the console with nothing changed, or end with its rule's result after
using console answers. -/
theorem exec_cases (i : Instr) (s : State) :
    exec i s = .next s ∨ ∃ s₁ r, s.UsedAnswers s₁ ∧ exec i s = s₁.finish r := by
  have plain : ∀ (d a b : Operand) (rule : Resolved → Except Raised Effect),
      s.perform d a b rule = .next s ∨ ∃ s₁ r, s.UsedAnswers s₁ ∧ s.perform d a b rule = s₁.finish r :=
    fun d a b rule => .inr ⟨s, s.resolveAll d a b >>= rule, State.UsedAnswers.refl s, rfl⟩
  cases i with
  | sti d a b =>
    rcases execSti_cases d a b s with ⟨f, _, h⟩ | ⟨r, _, _, h⟩ | ⟨r, x, rest, _, hl, h⟩
    · exact .inr ⟨s, .error f, State.UsedAnswers.refl s, h⟩
    · exact .inl h
    · have used : s.UsedAnswers { s with lines := rest } :=
        ⟨rfl, by rw [hl]; exact List.suffix_cons x rest, List.suffix_refl _⟩
      exact .inr ⟨_, _, used, h⟩
  | sto d a b =>
    rcases execSto_cases d a b s with ⟨f, _, h⟩ | ⟨r, _, _, h⟩ | ⟨r, rest, _, hl, h⟩ | ⟨r, rest, _, hl, h⟩
    · exact .inr ⟨s, .error f, State.UsedAnswers.refl s, h⟩
    · exact .inl h
    · have used : s.UsedAnswers { s with acks := rest } :=
        ⟨rfl, List.suffix_refl _, by rw [hl]; exact List.suffix_cons _ rest⟩
      exact .inr ⟨_, _, used, h⟩
    · have used : s.UsedAnswers { s with acks := rest } :=
        ⟨rfl, List.suffix_refl _, by rw [hl]; exact List.suffix_cons _ rest⟩
      exact .inr ⟨_, _, used, h⟩
  | _ d a b => exact plain d a b _

/-- Everything a step can do: nothing when none is enabled, a fault on a word without an opcode, or one instruction. -/
theorem step_cases (s : State) :
    (s.fetch = none ∧ step s = .next s) ∨
    (∃ w b, s.fetch = some w ∧ decodeWord w = .error (.unknownOpcode b) ∧ step s = s.rejectWord w) ∨
    (∃ w i, s.fetch = some w ∧ decodeWord w = .ok i ∧ step s = exec i s) := by
  unfold step
  cases hf : s.fetch with
  | none => exact .inl ⟨rfl, rfl⟩
  | some w =>
    right
    cases hd : decodeWord w with
    | ok i => exact .inr ⟨w, i, rfl, hd, by simp [hd]⟩
    | error e =>
      left
      refine ⟨w, opcodeByte w, rfl, ?_, by simp [hd]⟩
      unfold decodeWord at hd ⊢
      split at hd
      · cases hd
      · rfl

/-- The step after a word is placed where the machine fetches is the instruction of that word. -/
theorem step_withFetchWord {s : State} {nbits w : Nat} {i : Instr} (h : decodeWord (BitVec.ofNat 32 (w % 2 ^ nbits)) = .ok i) :
    step (s.withFetchWord nbits w) = exec i (s.withFetchWord nbits w) := by
  have hf : (s.withFetchWord nbits w).fetch = some (BitVec.ofNat 32 (w % 2 ^ nbits)) := s.placeWord_fetch _
  simp [step, hf, h]

end Sys2Proof.Machine
end

