-- ==== Sys2Proof/Laws/Rules.lean ====
section
/-!
SUPPORT. What the rule of an opcode may compute from the resolved operands, said once for the eighteen instructions that
do not touch the console. Frames, invariants and the control table all follow from it.
-/

namespace Sys2Proof.Machine

/-- Resolution either faults or hands its values to the rule. -/
theorem State.perform_cases (s : State) (d a b : Operand) (rule : Resolved → Except Raised Effect) :
    (∃ f, s.resolveAll d a b = .error f ∧ s.perform d a b rule = .next (s.takeFault f)) ∨
    (∃ v, s.resolveAll d a b = .ok v ∧ s.perform d a b rule = s.finish (rule v)) := by
  cases h : s.resolveAll d a b with
  | error f => exact .inl ⟨f, rfl, State.perform_error rule h⟩
  | ok v =>
    have hv := State.resolveAll_eq_ok h
    exact .inr ⟨v, rfl, State.perform_ok rule hv.1 hv.2.1 hv.2.2⟩

/-- A register of an in-range file holds a word. -/
theorem State.readReg_le {s : State} (h : s.regsInRange = true) (i : RegIndex) : s.readReg i ≤ s.maxWord := by
  simp only [State.regsInRange, List.all_eq_true, decide_eq_true_eq] at h
  exact h _ (by simp [State.readReg])

/-- What an opcode's rule may put into the effect it commits: its pc result, the destination register only, one memory
word only for a store, no console output, and the run state only for `hlt`. -/
structure EffectShape (s : State) (o : Opcode) (v : Resolved) (e : Effect) : Prop where
  nextPc : e.nextPc = s.pcResult o v
  pcStays : (controls o).br = false → e.nextPc = s.pc
  reg : ∀ i x, e.reg = some (i, x) →
    i.val = v.vd ∧ (controls o).rfWe = true ∧
      (s.regsInRange = true → s.mem.inRange s.cfg.memWords s.maxWord = true → 1 ≤ s.maxWord → v.v1 ≤ s.maxWord →
        x ≤ s.maxWord)
  mem : ∀ a x, e.mem = some (a, x) →
    a = v.vd ∧ a < s.cfg.memWords ∧ (controls o).memWe = true ∧ ∃ j : RegIndex, j.val = v.v1 ∧ x = s.readReg j
  out : e.out = none
  halt : e.halt = (controls o).halt

/-- What an opcode's rule may answer: a fault that is no IOFailure and whose `info` is 0 or a resolved value, or an
effect of its shape. -/
inductive RuleShape (s : State) (o : Opcode) (v : Resolved) : Except Raised Effect → Prop where
  | error (f : Raised) (kind : f.kind.cause ≠ 4) (info : f.info = 0 ∨ f.info = v.vd ∨ f.info = v.v1) :
    RuleShape s o v (.error f)
  | ok (e : Effect) (shape : EffectShape s o v e) : RuleShape s o v (.ok e)

/-- The faults a rule's checks may raise. -/
def CheckShape {α : Type} (v : Resolved) (r : Except Raised α) : Prop :=
  ∀ f, r = .error f → f.kind.cause ≠ 4 ∧ (f.info = 0 ∨ f.info = v.vd ∨ f.info = v.v1)

theorem RuleShape.bind {s : State} {o : Opcode} {v : Resolved} {α : Type} {x : Except Raised α}
    {k : α → Except Raised Effect} (hx : CheckShape v x) (hk : ∀ y, x = .ok y → RuleShape s o v (k y)) :
    RuleShape s o v (x >>= k) := by
  cases x with
  | error f => exact .error f (hx f rfl).1 (hx f rfl).2
  | ok y => exact hk y rfl

theorem checkReg_shape {v : Resolved} {n : Nat} (hn : n = v.vd ∨ n = v.v1) : CheckShape v (checkReg n) := by
  intro f h
  obtain ⟨_, rfl⟩ := checkReg_eq_error.mp h
  exact ⟨by simp [FaultKind.cause], .inr hn⟩

theorem State.checkMem_shape {s : State} {v : Resolved} {n : Nat} (hn : n = v.vd ∨ n = v.v1) :
    CheckShape v (s.checkMem n) := by
  intro f h
  obtain ⟨_, rfl⟩ := State.checkMem_eq_error.mp h
  exact ⟨by simp [FaultKind.cause], .inr hn⟩

theorem State.fit_shape {s : State} {v : Resolved} (n : Int) : CheckShape v (s.fit n) := by
  intro f h
  obtain ⟨_, rfl⟩ := State.fit_eq_error h
  exact ⟨by simp [FaultKind.cause], .inl rfl⟩

theorem quotient_eq_ok {a b q : Nat} (h : quotient a b = .ok q) : b ≠ 0 ∧ q = a / b := by
  unfold quotient at h
  split at h
  · cases h
  · rename_i hb; injection h with h; exact ⟨hb, h.symm⟩

theorem remainder_eq_ok {a b r : Nat} (h : remainder a b = .ok r) : b ≠ 0 ∧ r = a - b * (a / b) := by
  unfold remainder at h
  split at h
  · cases h
  · rename_i hb; injection h with h; exact ⟨hb, h.symm⟩

theorem quotient_shape {v : Resolved} (a b : Nat) : CheckShape v (quotient a b) := by
  intro f h
  unfold quotient at h
  split at h
  · injection h with h; subst h; exact ⟨by simp [FaultKind.cause], .inl rfl⟩
  · cases h

theorem remainder_shape {v : Resolved} (a b : Nat) : CheckShape v (remainder a b) := by
  intro f h
  unfold remainder at h
  split at h
  · injection h with h; subst h; exact ⟨by simp [FaultKind.cause], .inl rfl⟩
  · cases h

/-- The common end of the instructions that write a register. -/
theorem State.writeResult_shape {s : State} {o : Opcode} {v : Resolved} {r : Nat} (hw : (controls o).rfWe = true)
    (hh : (controls o).halt = false) (hb : (controls o).br = false)
    (hr : s.regsInRange = true → s.mem.inRange s.cfg.memWords s.maxWord = true → 1 ≤ s.maxWord → v.v1 ≤ s.maxWord →
      r ≤ s.maxWord) : RuleShape s o v (s.writeResult v.vd r) := by
  have hpc : s.pcResult o v = s.pc := by
    cases o <;> simp [controls] at hb <;> simp [State.pcResult]
  by_cases h : v.vd < 16
  · rw [State.writeResult_of_lt r h]
    refine .ok _ ⟨hpc.symm, fun _ => rfl, ?_, ?_, rfl, hh.symm⟩
    · intro i x e
      obtain ⟨rfl, rfl⟩ := Prod.mk.inj (Option.some.inj e)
      exact ⟨rfl, hw, hr⟩
    · intro a x e; cases e
  · rw [State.writeResult_of_le r (by omega)]
    exact .error _ (by simp [FaultKind.cause]) (.inr (.inl rfl))

/-- Everything a branch can answer. -/
theorem State.branch_cases (s : State) (c : Bool) (v : Resolved) :
    s.branch c v = .error { kind := .pc, info := v.vd } ∨
    s.branch c v = .ok { nextPc := if c then if v.v2 = 0 then s.pc - v.vd else s.pc + v.vd else s.pc } := by
  cases c with
  | false => exact .inr rfl
  | true =>
    by_cases h2 : v.v2 = 0
    · by_cases h3 : s.pc < v.vd
      · left; simp only [State.branch, if_true, h2, State.branchTarget_below h3]; rfl
      · right; simp only [State.branch, if_true, h2, State.branchTarget_back (Nat.le_of_not_lt h3)]; rfl
    · right; simp only [State.branch, if_true, h2, State.branchTarget_forward v.vd h2]; rfl

theorem State.branch_shape {s : State} {o : Opcode} {v : Resolved} (c : Bool)
    (ho : (o = .jpt ∧ c = (v.v1 != 0)) ∨ (o = .jpf ∧ c = (v.v1 == 0))) : RuleShape s o v (s.branch c v) := by
  have hpc : s.pcResult o v = if c then if v.v2 = 0 then s.pc - v.vd else s.pc + v.vd else s.pc := by
    rcases ho with ⟨rfl, rfl⟩ | ⟨rfl, rfl⟩ <;> simp [State.pcResult]
  have hc : (controls o).halt = false ∧ (controls o).br = true := by
    rcases ho with ⟨rfl, _⟩ | ⟨rfl, _⟩ <;> exact ⟨rfl, rfl⟩
  rcases s.branch_cases c v with h | h <;> rw [h]
  · exact .error _ (by simp [FaultKind.cause]) (.inr (.inl rfl))
  · refine .ok _ ⟨hpc.symm, ?_, ?_, ?_, rfl, hc.1.symm⟩
    · intro hb; rw [hc.2] at hb; cases hb
    · intro i x e; cases e
    · intro a x e; cases e

/-- Every instruction but `sti` and `sto` is resolution followed by a rule of its shape. -/
theorem exec_plain (i : Instr) (s : State) (h1 : i.opcode ≠ .sti) (h2 : i.opcode ≠ .sto) :
    ∃ rule, exec i s = s.perform i.operands.1 i.operands.2.1 i.operands.2.2 rule ∧
      ∀ v, RuleShape s i.opcode v (rule v) := by
  cases i with
  | sti d a b => exact absurd rfl h1
  | sto d a b => exact absurd rfl h2
  | hlt d a b =>
    refine ⟨_, rfl, fun v => .ok _ ⟨?_, fun _ => rfl, ?_, ?_, rfl, rfl⟩⟩
    · simp [State.pcResult, Instr.opcode]
    · intro i x e; cases e
    · intro a x e; cases e
  | ldr d a b =>
    exact ⟨_, rfl, fun v => RuleShape.bind (State.checkMem_shape (.inr rfl)) fun y _ =>
      State.writeResult_shape (r := s.memRead y) rfl rfl rfl fun _ hm _ _ => Memory.read_le hm _⟩
  | str d a b =>
    refine ⟨_, rfl, fun v => RuleShape.bind (checkReg_shape (.inr rfl)) fun y hy =>
      RuleShape.bind (State.checkMem_shape (.inl rfl)) fun z hz => .ok _ ⟨?_, fun _ => rfl, ?_, ?_, rfl, rfl⟩⟩
    · simp [State.pcResult, Instr.opcode]
    · intro i x e; cases e
    · intro a x e
      obtain ⟨rfl, rfl⟩ := Prod.mk.inj (Option.some.inj e)
      have hz' := State.checkMem_eq_ok.mp hz
      exact ⟨hz'.1.symm, hz'.1 ▸ hz'.2, rfl, y, (checkReg_eq_ok.mp hy).symm, rfl⟩
  | set d a b => exact ⟨_, rfl, fun v => State.writeResult_shape (r := v.v1) rfl rfl rfl fun _ _ _ h => h⟩
  | cpy d a b =>
    exact ⟨_, rfl, fun v => RuleShape.bind (checkReg_shape (.inr rfl)) fun y _ =>
      State.writeResult_shape (r := s.readReg y) rfl rfl rfl fun h _ _ _ => State.readReg_le h y⟩
  | jpt d a b => exact ⟨_, rfl, fun v => State.branch_shape _ (.inl ⟨rfl, rfl⟩)⟩
  | jpf d a b => exact ⟨_, rfl, fun v => State.branch_shape _ (.inr ⟨rfl, rfl⟩)⟩
  | add d a b | sub d a b | mul d a b =>
    exact ⟨_, rfl, fun v => RuleShape.bind (State.fit_shape _) fun y hy =>
      State.writeResult_shape rfl rfl rfl fun _ _ _ _ => State.fit_le hy⟩
  | div d a b =>
    refine ⟨_, rfl, fun v => RuleShape.bind (quotient_shape _ _) fun y hy =>
      State.writeResult_shape rfl rfl rfl fun _ _ _ h => ?_⟩
    rw [(quotient_eq_ok hy).2]
    exact le_trans (Nat.div_le_self _ _) h
  | mod d a b =>
    refine ⟨_, rfl, fun v => RuleShape.bind (remainder_shape _ _) fun y hy =>
      State.writeResult_shape rfl rfl rfl fun _ _ _ h => ?_⟩
    rw [(remainder_eq_ok hy).2]
    exact le_trans (Nat.sub_le _ _) h
  | eql d a b | neq d a b | let_ d a b | leq d a b | grt d a b | geq d a b =>
    refine ⟨_, rfl, fun v => State.writeResult_shape rfl rfl rfl fun _ _ h _ => ?_⟩
    unfold bool01
    split <;> omega

end Sys2Proof.Machine
end

