-- ==== Sys2Proof/Laws/Inversion.lean ====
section
/-!
SUPPORT. Everything that executing an instruction can do, said once for all twenty instructions: it waits for the host,
takes a fault, or commits an effect of its shape. Invariants and frames are short case analyses of this.
-/

namespace Sys2Proof.Machine

/-- `s₁` is `s` with at most the one console answer used that the instruction asks for. -/
structure Used (i : Instr) (s s₁ : State) : Prop where
  same : s₁ = { s with lines := s₁.lines, acks := s₁.acks }
  lines : s₁.lines = s.lines ∨ (i.opcode = .sti ∧ ∃ x, s.lines = x :: s₁.lines)
  acks : s₁.acks = s.acks ∨ (i.opcode = .sto ∧ ∃ x, s.acks = x :: s₁.acks)

theorem Used.refl (i : Instr) (s : State) : Used i s s := ⟨rfl, .inl rfl, .inl rfl⟩

/-- The shape of the effect of an instruction with the resolved values `v`, the console instructions included. -/
structure CommitShape (i : Instr) (s : State) (v : Resolved) (e : Effect) : Prop where
  nextPc : e.nextPc = s.pcResult i.opcode v
  pcStays : (controls i.opcode).br = false → e.nextPc = s.pc
  reg : ∀ r x, e.reg = some (r, x) →
    r.val = v.vd ∧ (controls i.opcode).rfWe = true ∧ (s.Inv → v.v1 ≤ s.maxWord → x ≤ s.maxWord)
  mem : ∀ a x, e.mem = some (a, x) →
    a = v.vd ∧ a < s.cfg.memWords ∧ (controls i.opcode).memWe = true ∧ ∃ j : RegIndex, j.val = v.v1 ∧ x = s.readReg j
  out : e.out = none ∨ i.opcode = .sto
  halt : e.halt = (controls i.opcode).halt

/-- What an instruction can do. -/
inductive Does (i : Instr) (s : State) : State → Prop
  /-- It waits for the host. -/
  | wait (h : s.hasAnswerFor i.opcode = false) : Does i s s
  /-- An operand does not resolve. -/
  | resolveFault (f : Raised) (h : s.resolveAll i.operands.1 i.operands.2.1 i.operands.2.2 = .error f)
    (kind : f.kind.cause ≠ 4) (info : s.Inv → f.info ≤ s.maxWord) : Does i s (s.takeFault f)
  /-- Its rule, the console or the pc increment raises a fault. -/
  | ruleFault (s₁ : State) (f : Raised) (v : Resolved)
    (h : s.resolveAll i.operands.1 i.operands.2.1 i.operands.2.2 = .ok v) (used : Used i s s₁)
    (kind : f.kind.cause = 4 → i.opcode = .sti ∨ i.opcode = .sto) (info : s.Inv → f.info ≤ s.maxWord) :
    Does i s (s₁.takeFault f)
  /-- It commits its effect. -/
  | commit (s₁ : State) (e : Effect) (v : Resolved)
    (h : s.resolveAll i.operands.1 i.operands.2.1 i.operands.2.2 = .ok v) (used : Used i s s₁)
    (shape : CommitShape i s v e) (inRange : e.nextPc + 1 ≤ s.maxWord) : Does i s (s₁.commit e)

/-- A resolved value is a word. -/
theorem State.resolve_le {s : State} (h : s.Inv) {o : Operand} {x : Nat} (e : s.resolve o = .ok x) : x ≤ s.maxWord := by
  have h8 : 256 ≤ s.modulus := by
    have := h.width
    calc 256 = 2 ^ 8 := rfl
      _ ≤ 2 ^ s.cfg.wordBits := Nat.pow_le_pow_right (by decide) this
  have hm : s.maxWord = s.modulus - 1 := rfl
  cases o with
  | imm v => cases e; have := v.isLt; omega
  | narrow v => cases e; have := v.isLt; omega
  | reg mm r => cases e; exact State.readReg_le h.regs _
  | off v =>
    simp only [State.resolve, State.offset] at e
    split at e
    · cases e
    · cases e; omega

/-- An instruction that ends with `finish` does one of these. -/
theorem does_of_finish {i : Instr} {s s₁ t : State} {v : Resolved} {r : Except Raised Effect}
    (h : s.resolveAll i.operands.1 i.operands.2.1 i.operands.2.2 = .ok v) (u : Used i s s₁)
    (hf : ∀ f, r = .error f →
      (f.kind.cause = 4 → i.opcode = .sti ∨ i.opcode = .sto) ∧ (s.Inv → f.info ≤ s.maxWord))
    (he : ∀ e, r = .ok e → CommitShape i s v e) (ht : s₁.finish r = .next t) : Does i s t := by
  have hm : s₁.maxWord = s.maxWord := State.maxWord_congr (by rw [u.same])
  have hmod : s₁.modulus = s.modulus := State.modulus_congr (by rw [u.same])
  rcases s₁.finish_cases r with ⟨f, h1, h2⟩ | ⟨e, h1, hlt, h2⟩ | ⟨e, h1, hle, h2⟩ <;> rw [ht] at h2 <;> cases h2
  · exact .ruleFault s₁ f v h u (hf f h1).1 (hf f h1).2
  · refine .ruleFault s₁ _ v h u (by simp [FaultKind.cause]) ?_
    intro _
    show (e.nextPc + 1) % s₁.modulus ≤ s.maxWord
    rw [s.le_maxWord_iff, ← hmod]
    exact Nat.mod_lt _ s₁.modulus_pos
  · exact .commit s₁ e v h u (he e h1) (by omega)

/-- A resolution fault is no IOFailure, and its `info` is a word. -/
theorem State.resolveAll_info {s : State} {d a b : Operand} {f : Raised} (h : s.resolveAll d a b = .error f) :
    f.kind.cause ≠ 4 ∧ (s.Inv → f.info ≤ s.maxWord) := by
  have : ∃ o, s.resolve o = .error f := by
    rcases State.resolveAll_eq_error h with h | h | h <;> exact ⟨_, h⟩
  obtain ⟨o, ho⟩ := this
  obtain ⟨v, _, _, rfl⟩ := State.resolve_eq_error ho
  refine ⟨by simp [FaultKind.cause], fun _ => ?_⟩
  rw [s.le_maxWord_iff]; exact Nat.mod_lt _ s.modulus_pos

/-- A parsed number is a word. -/
theorem parseUnsigned_le {m n : Nat} {t : Text} (h : parseUnsigned m t = some n) : n ≤ m := by
  unfold parseUnsigned at h
  simp only at h
  split at h
  · cases h
  · split at h
    · split at h
      · rename_i h3; cases h; exact h3
      · cases h
    · cases h

/-- Every next state of an instruction is one of these. -/
theorem exec_does {i : Instr} {s t : State} (h : exec i s = .next t) : Does i s t := by
  by_cases h1 : i.opcode = .sti
  · cases i <;> simp [Instr.opcode] at h1
    rename_i d a b
    simp only [exec] at h
    rcases execSti_cases d a b s with ⟨f, hc, he⟩ | ⟨r, hc, hl, he⟩ | ⟨r, x, rest, hc, hl, he⟩ <;> rw [h] at he
    · cases he
      rcases State.consoleReg_eq_error hc with hr | ⟨v, hr, hv⟩
      · exact .resolveFault f hr (State.resolveAll_info hr).1 (State.resolveAll_info hr).2
      · obtain ⟨hge, rfl⟩ := checkReg_eq_error.mp hv
        exact .ruleFault s _ v hr (Used.refl _ _) (by simp [FaultKind.cause]) fun hI => State.resolve_le hI (State.resolveAll_eq_ok hr).1
    · cases he; exact .wait (by simp [State.hasAnswerFor, Instr.opcode, hl])
    · have : ∃ v, s.resolveAll d a b = .ok v ∧ checkReg v.vd = .ok r := by
        unfold State.consoleReg at hc
        cases hr : s.resolveAll d a b with
        | error f => rw [hr] at hc; cases hc
        | ok v => rw [hr] at hc; exact ⟨v, rfl, hc⟩
      obtain ⟨v, hr, hv⟩ := this
      refine does_of_finish (s₁ := {s with lines := rest}) (v := v) hr ⟨rfl, .inr ⟨rfl, x, hl⟩, .inl rfl⟩ ?_ ?_ he.symm
      · intro f hf
        refine ⟨fun _ => .inl rfl, fun _ => ?_⟩
        cases x with
        | fail => cases hf; exact Nat.zero_le _
        | line tx =>
          simp only [State.numberFrom] at hf
          cases hp : parseUnsigned s.maxWord tx <;> rw [hp] at hf <;> cases hf
          exact Nat.zero_le _
      · intro e hf
        cases x with
        | fail => cases hf
        | line tx =>
          simp only [State.numberFrom] at hf
          cases hp : parseUnsigned s.maxWord tx <;> rw [hp] at hf <;> cases hf
          rename_i n
          refine ⟨by simp [State.pcResult, Instr.opcode], fun _ => rfl, ?_, ?_, .inl rfl, rfl⟩
          · intro r' x' e'; cases e'
            exact ⟨(checkReg_eq_ok.mp hv).symm, rfl, fun _ _ => parseUnsigned_le hp⟩
          · intro a x e'; cases e'
  by_cases h2 : i.opcode = .sto
  · cases i <;> simp [Instr.opcode] at h2
    rename_i d a b
    simp only [exec] at h
    rcases execSto_cases d a b s with ⟨f, hc, he⟩ | ⟨r, hc, hl, he⟩ | ⟨r, rest, hc, hl, he⟩ | ⟨r, rest, hc, hl, he⟩ <;> rw [h] at he
    · cases he
      rcases State.consoleReg_eq_error hc with hr | ⟨v, hr, hv⟩
      · exact .resolveFault f hr (State.resolveAll_info hr).1 (State.resolveAll_info hr).2
      · obtain ⟨hge, rfl⟩ := checkReg_eq_error.mp hv
        exact .ruleFault s _ v hr (Used.refl _ _) (by simp [FaultKind.cause]) fun hI => State.resolve_le hI (State.resolveAll_eq_ok hr).1
    · cases he; exact .wait (by simp [State.hasAnswerFor, Instr.opcode, hl])
    all_goals
      have : ∃ v, s.resolveAll d a b = .ok v ∧ checkReg v.vd = .ok r := by
        unfold State.consoleReg at hc
        cases hr : s.resolveAll d a b with
        | error f => rw [hr] at hc; cases hc
        | ok v => rw [hr] at hc; exact ⟨v, rfl, hc⟩
      obtain ⟨v, hr, hv⟩ := this
      refine does_of_finish (s₁ := {s with acks := rest}) (v := v) hr ⟨rfl, .inl rfl, .inr ⟨rfl, _, hl⟩⟩ ?_ ?_ he.symm
    · intro f hf; cases hf
    · intro e hf; cases hf
      refine ⟨by simp [State.pcResult, Instr.opcode], fun _ => rfl, ?_, ?_, .inr rfl, rfl⟩
      · intro r' x' e'; cases e'
      · intro a x e'; cases e'
    · intro f hf; cases hf; exact ⟨fun _ => .inr rfl, fun _ => Nat.zero_le _⟩
    · intro f hf; cases hf
  obtain ⟨rule, hr, hs⟩ := exec_plain i s h1 h2
  rw [hr] at h
  rcases s.perform_cases i.operands.1 i.operands.2.1 i.operands.2.2 rule with ⟨f, h3, h4⟩ | ⟨v, h3, h4⟩ <;> rw [h] at h4
  · cases h4; exact .resolveFault f h3 (State.resolveAll_info h3).1 (State.resolveAll_info h3).2
  · have hv := State.resolveAll_eq_ok h3
    refine does_of_finish (s₁ := s) (v := v) h3 (Used.refl _ _) ?_ ?_ h4.symm
    · intro f hf
      have := hs v; rw [hf] at this
      cases this with
      | error _ k i =>
        refine ⟨fun h => absurd h k, fun hI => ?_⟩
        rcases i with i | i | i <;> rw [i]
        · exact Nat.zero_le _
        · exact State.resolve_le hI hv.1
        · exact State.resolve_le hI hv.2.1
    · intro e hf
      have := hs v; rw [hf] at this
      cases this with
      | ok _ sh =>
        refine ⟨sh.nextPc, sh.pcStays, ?_, sh.mem, .inl sh.out, sh.halt⟩
        intro r x hx
        have := sh.reg r x hx
        refine ⟨this.1, this.2.1, fun hI hv1 => this.2.2 hI.regs hI.memRange ?_ hv1⟩
        have := hI.width
        have : 2 ^ 8 ≤ 2 ^ s.cfg.wordBits := Nat.pow_le_pow_right (by decide) this
        have : s.maxWord = 2 ^ s.cfg.wordBits - 1 := rfl
        omega

/-- Every step answers a next state. -/
theorem step_next (s : State) : ∃ t, step s = .next t := by
  cases h : step s with
  | next t => exact ⟨t, rfl⟩
  | fault r => cases r
  | refused r =>
    exfalso
    rcases step_cases s with ⟨_, h'⟩ | ⟨w, b, hf, hd, h'⟩ | ⟨w, i, hf, hd, h'⟩ <;> rw [h] at h'
    · cases h'
    · cases h'
    · rcases exec_cases i s with h2 | ⟨s1, r', _, h2⟩ <;> rw [h2] at h'
      · cases h'
      · rcases s1.finish_cases r' with ⟨f, h1, h3⟩ | ⟨e, h1, hlt, h3⟩ | ⟨e, h1, hle, h3⟩ <;> rw [h3] at h' <;> cases h'

/-- A commit leaves every register but its destination. -/
theorem State.commit_readReg_of_ne (s : State) (e : Effect) (vd : Nat)
    (h : ∀ r x, e.reg = some (r, x) → r.val = vd) (j : RegIndex) (hj : j.val ≠ vd) :
    (s.commit e).readReg j = s.readReg j := by
  cases hr : e.reg with
  | none => simp [State.readReg, hr]
  | some p =>
    obtain ⟨r, x⟩ := p
    have : r.val ≠ j.val := by rw [h r x hr]; exact fun e => hj e.symm
    simp only [State.readReg, State.commit_regs, hr]
    simp [Vector.getElem_set_ne, this]

end Sys2Proof.Machine
end

