-- ==== Sys2Proof/Laws/PerInstr.lean ====
section
/-!
SUPPORT. Facts about each instruction as syntax, one lemma per constructor, and the field lemmas of the word format.
-/

namespace Sys2Proof

/-! ### The fields of a packed word (30_encoding.md R70, R71) -/

theorem opcodeByte_packWord (o d a b : Byte) : opcodeByte (packWord o d a b) = o := by
  ext i hi
  simp only [opcodeByte, packWord, BitVec.getElem_extractLsb', BitVec.getLsbD_append]
  simp (disch := omega) [show ¬(24 + i < 8) by omega, show ¬(24 + i - 8 < 8) by omega, show ¬(24 + i - 8 - 8 < 8) by omega,
    show 24 + i - 8 - 8 - 8 = i by omega, BitVec.getLsbD_eq_getElem]

theorem destByte_packWord (o d a b : Byte) : destByte (packWord o d a b) = d := by
  ext i hi
  simp only [destByte, packWord, BitVec.getElem_extractLsb', BitVec.getLsbD_append]
  simp (disch := omega) [show ¬(16 + i < 8) by omega, show ¬(16 + i - 8 < 8) by omega,
    show 16 + i - 8 - 8 = i by omega, BitVec.getLsbD_eq_getElem, hi]

theorem op1Byte_packWord (o d a b : Byte) : op1Byte (packWord o d a b) = a := by
  ext i hi
  simp only [op1Byte, packWord, BitVec.getElem_extractLsb', BitVec.getLsbD_append]
  simp (disch := omega) [show ¬(8 + i < 8) by omega, show 8 + i - 8 = i by omega,
    BitVec.getLsbD_eq_getElem, hi]

theorem op2Byte_packWord (o d a b : Byte) : op2Byte (packWord o d a b) = b := by
  ext i hi
  simp only [op2Byte, packWord, BitVec.getElem_extractLsb', BitVec.getLsbD_append]
  simp (disch := omega) [BitVec.getLsbD_eq_getElem, hi]

/-! ### The opcode byte of every instruction -/

/-- The most significant byte of an instruction's word is its opcode's byte, and the opcode decoder reads the opcode
from it (30_encoding.md R82, R83). -/
def Laws.OpcodeByte.Statement (i : Instr) : Prop :=
  opcodeByte (encode i) = i.opcode.code ∧ decodeOp i.opcode.code = some i.opcode

/-- Every opcode is read back from its byte. -/
theorem decodeOp_code (o : Opcode) : decodeOp o.code = some o := by cases o <;> rfl

/-- The statement holds of an instruction whatever its opcode: the constructors below are its instances. -/
theorem Laws.opcodeByte_holds (i : Instr) : Laws.OpcodeByte.Statement i :=
  ⟨opcodeByte_packWord _ _ _ _, decodeOp_code _⟩

theorem Laws.OpcodeByte.hlt (d a b : Operand) : Laws.OpcodeByte.Statement (.hlt d a b) := Laws.opcodeByte_holds _

theorem Laws.OpcodeByte.ldr (d a b : Operand) : Laws.OpcodeByte.Statement (.ldr d a b) := Laws.opcodeByte_holds _

theorem Laws.OpcodeByte.str (d a b : Operand) : Laws.OpcodeByte.Statement (.str d a b) := Laws.opcodeByte_holds _

theorem Laws.OpcodeByte.set (d a b : Operand) : Laws.OpcodeByte.Statement (.set d a b) := Laws.opcodeByte_holds _

theorem Laws.OpcodeByte.cpy (d a b : Operand) : Laws.OpcodeByte.Statement (.cpy d a b) := Laws.opcodeByte_holds _

theorem Laws.OpcodeByte.jpt (d a b : Operand) : Laws.OpcodeByte.Statement (.jpt d a b) := Laws.opcodeByte_holds _

theorem Laws.OpcodeByte.jpf (d a b : Operand) : Laws.OpcodeByte.Statement (.jpf d a b) := Laws.opcodeByte_holds _

theorem Laws.OpcodeByte.add (d a b : Operand) : Laws.OpcodeByte.Statement (.add d a b) := Laws.opcodeByte_holds _

theorem Laws.OpcodeByte.sub (d a b : Operand) : Laws.OpcodeByte.Statement (.sub d a b) := Laws.opcodeByte_holds _

theorem Laws.OpcodeByte.mul (d a b : Operand) : Laws.OpcodeByte.Statement (.mul d a b) := Laws.opcodeByte_holds _

theorem Laws.OpcodeByte.div (d a b : Operand) : Laws.OpcodeByte.Statement (.div d a b) := Laws.opcodeByte_holds _

theorem Laws.OpcodeByte.mod (d a b : Operand) : Laws.OpcodeByte.Statement (.mod d a b) := Laws.opcodeByte_holds _

theorem Laws.OpcodeByte.eql (d a b : Operand) : Laws.OpcodeByte.Statement (.eql d a b) := Laws.opcodeByte_holds _

theorem Laws.OpcodeByte.neq (d a b : Operand) : Laws.OpcodeByte.Statement (.neq d a b) := Laws.opcodeByte_holds _

theorem Laws.OpcodeByte.let_ (d a b : Operand) : Laws.OpcodeByte.Statement (.let_ d a b) := Laws.opcodeByte_holds _

theorem Laws.OpcodeByte.leq (d a b : Operand) : Laws.OpcodeByte.Statement (.leq d a b) := Laws.opcodeByte_holds _

theorem Laws.OpcodeByte.grt (d a b : Operand) : Laws.OpcodeByte.Statement (.grt d a b) := Laws.opcodeByte_holds _

theorem Laws.OpcodeByte.geq (d a b : Operand) : Laws.OpcodeByte.Statement (.geq d a b) := Laws.opcodeByte_holds _

theorem Laws.OpcodeByte.sti (d a b : Operand) : Laws.OpcodeByte.Statement (.sti d a b) := Laws.opcodeByte_holds _

theorem Laws.OpcodeByte.sto (d a b : Operand) : Laws.OpcodeByte.Statement (.sto d a b) := Laws.opcodeByte_holds _

end Sys2Proof
end

