-- ==== Sys2Proof/Laws/Run.lean ====
section
/-!
SUPPORT. The host's `run()`: which end of a run a state is at, and what a run answers, said once.
-/

namespace Sys2Proof.Machine

@[simp] theorem State.runEnd_of_fault {s : State} (h : s.fault.valid = true) : s.runEnd = some .faulted := if_pos h

theorem State.runEnd_of_valid_eq_false {s : State} (h : s.fault.valid = false) :
    s.runEnd =
      match s.run with
      | .halting => some .halted
      | .running => if s.rom.length ≤ s.pc then some .exhausted else none
      | .suspended => none :=
  if_neg (by simp [h])

/-- What the end of a run says of the state, by kind. -/
theorem State.runEnd_cases {s : State} {e : RunEnd} (h : s.runEnd = some e) :
    (e = .faulted ∧ s.fault.valid = true) ∨
    (e = .halted ∧ s.fault.valid = false ∧ s.run = .halting) ∨
    (e = .exhausted ∧ s.fault.valid = false ∧ s.run = .running ∧ s.rom.length ≤ s.pc) := by
  cases hv : s.fault.valid with
  | true =>
    rw [State.runEnd_of_fault hv] at h
    cases h
    exact .inl ⟨rfl, rfl⟩
  | false =>
    rw [State.runEnd_of_valid_eq_false hv] at h
    cases hr : s.run <;> simp only [hr] at h
    · cases h
    · split at h
      · rename_i hp
        cases h
        exact .inr (.inr ⟨rfl, rfl, rfl, hp⟩)
      · cases h
    · cases h
      exact .inr (.inl ⟨rfl, rfl, rfl⟩)

/-- An end of a run is a state where the end-of-run condition holds. -/
theorem State.ended_of_runEnd {s : State} {e : RunEnd} (h : s.runEnd = some e) : s.ended = true := by
  rcases State.runEnd_cases h with ⟨_, hv⟩ | ⟨_, _, hr⟩ | ⟨_, _, _, hp⟩ <;> simp [State.ended, *]

@[simp] theorem State.startRun_of_fault {s : State} (h : s.fault.valid = true) : s.startRun = s := if_pos h

@[simp] theorem State.startRun_of_valid_eq_false {s : State} (h : s.fault.valid = false) :
    s.startRun = { s with run := .running } := if_neg (by simp [h])

/-- A run answers the end that its loop reaches, with the return value of that state. -/
theorem State.runBlock_eq_some {s t : State} {fuel : Nat} {r : RunReturn} :
    s.runBlock fuel = some (t, r) ↔ State.runLoop fuel s.startRun = some t ∧ r = t.runReturn := by
  unfold State.runBlock
  cases State.runLoop fuel s.startRun with
  | none => simp
  | some u =>
    simp only [Option.some.injEq, Prod.mk.injEq]
    constructor
    · rintro ⟨rfl, rfl⟩
      exact ⟨rfl, rfl⟩
    · rintro ⟨rfl, rfl⟩
      exact ⟨rfl, rfl⟩

end Sys2Proof.Machine
end

