-- ==== Sys2Proof/Tests/Slice0.lean ====
section
/-!
SUPPORT. The model's own tests. The expected results are transcribed from 95_test_vectors.md (the section is named where
a group begins); the witnesses at the end show that the hypotheses of the statements can be met, clause by clause.
-/

namespace Sys2Proof.Tests

open Sys2Proof.Machine

/-! ### Helpers -/

/-- The state after reset, but with the given registers and pc. -/
def start (regs : List (RegIndex × Nat)) (pc : Nat) : State :=
  regs.foldl (fun s r => s.writeReg r.1 r.2) { State.reset with pc := pc }

/-- `start` with words of 8 bits. -/
def start8 (regs : List (RegIndex × Nat)) (pc : Nat) : State :=
  { start regs pc with cfg := { Config.default with wordBits := 8 } }

/-- `start` with the overflow policy `wrap`. -/
def startWrap (regs : List (RegIndex × Nat)) : State :=
  { start regs 0 with cfg := { Config.default with overflow := .wrap } }

/-- What is seen of the next state when the word `w` is the one fetched. -/
def result {α : Type} (s : State) (w : Nat) (see : State → α) : Option α :=
  match step (s.withFetchWord 32 w) with
  | .next t => some (see t)
  | .fault _ => none
  | .refused _ => none

/-- The latched fault: cause, sub-kind, `info`, and the pc. -/
def latched (t : State) : Bool × Nat × Nat × Nat × Nat :=
  (t.fault.valid, t.fault.cause, t.fault.sub, t.fault.info, t.pc)

/-- The value of register `i` and the pc. -/
def reg (i : RegIndex) (t : State) : Nat × Nat := (t.readReg i, t.pc)

/-! ### Well-formedness: every operand of every shape but one is what a byte encodes (30_encoding.md R73, R85) -/

theorem test_wf_refuses_dest : (Instr.set (.reg 0 3) (.imm 1) (.narrow 0)).wf = false := by decide

theorem test_wf_refuses_op1 : (Instr.set (.imm 3) (.reg 0 1) (.narrow 0)).wf = false := by decide

theorem test_wf_refuses_op2 : (Instr.set (.imm 3) (.imm 1) (.reg 0 0)).wf = false := by decide

theorem test_wf_accepts : (Instr.set (.reg 3 3) (.off 1) (.narrow 0)).wf = true := by decide

/-! ### Decoding: one word per constructor, written from the encodings of R70, R73 and R82 (95_test_vectors.md 2.5 to
2.9 and section 3) -/

theorem test_decode_hlt : decodeTableWord 32 0x00000000 = some (.hlt (.narrow 0) (.narrow 0) (.narrow 0)) := by decide

theorem test_decode_ldr : decodeTableWord 32 0x01844300 = some (.ldr (.imm 4) (.off 3) (.narrow 0)) := by decide

theorem test_decode_str : decodeTableWord 32 0x02E41200 = some (.str (.imm 100) (.reg 1 2) (.narrow 0)) := by decide

theorem test_decode_set : decodeTableWord 32 0x03803000 = some (.set (.imm 0) (.reg 3 0) (.narrow 0)) := by decide

theorem test_decode_cpy : decodeTableWord 32 0x04891700 = some (.cpy (.imm 9) (.reg 1 7) (.narrow 0)) := by decide

theorem test_decode_jpt : decodeTableWord 32 0x10831380 = some (.jpt (.imm 3) (.reg 1 3) (.imm 0)) := by decide

theorem test_decode_jpf : decodeTableWord 32 0x11821281 = some (.jpf (.imm 2) (.reg 1 2) (.imm 1)) := by decide

theorem test_decode_add : decodeTableWord 32 0x20811011 = some (.add (.imm 1) (.reg 1 0) (.reg 1 1)) := by decide

theorem test_decode_sub : decodeTableWord 32 0x21851310 = some (.sub (.imm 5) (.reg 1 3) (.reg 1 0)) := by decide

theorem test_decode_mul : decodeTableWord 32 0x22821011 = some (.mul (.imm 2) (.reg 1 0) (.reg 1 1)) := by decide

theorem test_decode_div : decodeTableWord 32 0x23861514 = some (.div (.imm 6) (.reg 1 5) (.reg 1 4)) := by decide

theorem test_decode_mod : decodeTableWord 32 0x24871514 = some (.mod (.imm 7) (.reg 1 5) (.reg 1 4)) := by decide

theorem test_decode_eql : decodeTableWord 32 0x30848383 = some (.eql (.imm 4) (.imm 3) (.imm 3)) := by decide

theorem test_decode_neq : decodeTableWord 32 0x31848385 = some (.neq (.imm 4) (.imm 3) (.imm 5)) := by decide

theorem test_decode_let : decodeTableWord 32 0x32831188 = some (.let_ (.imm 3) (.reg 1 1) (.imm 8)) := by decide

theorem test_decode_leq : decodeTableWord 32 0x33848888 = some (.leq (.imm 4) (.imm 8) (.imm 8)) := by decide

theorem test_decode_grt : decodeTableWord 32 0x34848988 = some (.grt (.imm 4) (.imm 9) (.imm 8)) := by decide

theorem test_decode_geq : decodeTableWord 32 0x35848788 = some (.geq (.imm 4) (.imm 7) (.imm 8)) := by decide

theorem test_decode_sti : decodeTableWord 32 0x50808000 = some (.sti (.imm 0) (.imm 0) (.narrow 0)) := by decide

theorem test_decode_sto : decodeTableWord 32 0x51108000 = some (.sto (.reg 1 0) (.imm 0) (.narrow 0)) := by decide

/-- 95_test_vectors.md 2.4: illegal opcode bytes, by name. -/
theorem test_decode_unknown :
    ([0x05#8, 0x0F#8, 0x12#8, 0x25#8, 0x36#8, 0x40#8, 0x4F#8, 0x52#8, 0x80#8, 0xFF#8].all fun b =>
      decodeBytes [b, 0x80#8, 0x81#8, 0x82#8] == .error (.unknownOpcode b)) = true := by decide

/-- 20_memory.md R55: fewer than four bytes are no instruction. -/
theorem test_decode_incomplete : decodeBytes [0x03#8, 0x80#8, 0x81#8] = .error (.incomplete 3) := by decide

/-- 95_test_vectors.md 2.1, at pc 10 with x[2] = 7 and x[15] = 99. -/
theorem test_resolve :
    [0x00#8, 0x0F#8, 0x10#8, 0x12#8, 0x22#8, 0x32#8, 0x1F#8, 0x3F#8].map
        (fun b => (start [(2, 7), (15, 99)] 10).resolve (decodeOperand b)) =
      [0, 15, 0, 7, 7, 7, 99, 99].map .ok ∧
    [0x40#8, 0x41#8, 0x7F#8, 0x80#8, 0x83#8, 0xFF#8].map
        (fun b => (start [(2, 7), (15, 99)] 10).resolve (decodeOperand b)) =
      [10, 11, 73, 0, 3, 127].map .ok := by decide

/-- 95_test_vectors.md 2.1, last row: an offset of 10 at pc 250 with 8-bit words. -/
theorem test_resolve_offset_fault :
    (start8 [] 250).resolve (decodeOperand 0x4A#8) = .error { kind := .operand, info := 4 } := by decide

/-! ### One step per instruction (95_test_vectors.md 2.4 to 2.9) -/

theorem test_unknown_opcode :
    result (start [] 3) 0x05000000 (fun t => (latched t, t.fault.fpc, t.fault.fword, t.run)) =
      some ((true, 1, 0, 5, 3), 3, 0x05000000#32, .running) := by decide

theorem test_hlt : result (start [] 6) 0x00000000 (fun t => (t.run, t.pc)) = some (.halting, 7) := by decide

theorem test_ldr :
    result ((start [(1, 65535)] 0).memWrite 65535 9) 0x01801100 (reg 0) = some (9, 1) := by decide

theorem test_ldr_checks_memory_first :
    result (start [(1, 70000)] 0) 0x01911100 latched = some (true, 3, 1, 70000, 0) := by decide

theorem test_str :
    result (start [(1, 7)] 5) 0x02448100 (fun t => (t.mem, t.pc)) = some ([(9, 7)], 6) := by decide

theorem test_str_checks_source :
    result (start [] 0) 0x02809000 (fun t => (latched t, t.mem)) = some ((true, 3, 0, 16, 0), []) := by decide

theorem test_set : result (start [] 12) 0x03804300 (reg 0) = some (15, 13) := by decide

theorem test_set_register_16 : result (start [] 0) 0x03908100 latched = some (true, 3, 0, 16, 0) := by decide

theorem test_cpy : result (start [(7, 2), (2, 35)] 0) 0x04891700 (reg 9) = some (35, 1) := by decide

theorem test_cpy_checks_source : result (start [(7, 16)] 0) 0x04891700 latched = some (true, 3, 0, 16, 0) := by decide

theorem test_jpt_backward : result (start [(3, 2 ^ 64 - 1)] 4) 0x10831380 (fun t => t.pc) = some 2 := by decide

theorem test_jpt_below_zero : result (start [] 4) 0x10858180 latched = some (true, 3, 2, 5, 4) := by decide

theorem test_jpf_forward : result (start [] 5) 0x11821281 (fun t => t.pc) = some 8 := by decide

theorem test_jpf_not_taken : result (start [] 4) 0x11838181 (fun t => t.pc) = some 5 := by decide

theorem test_add_source_is_destination : result (start [(0, 21)] 0) 0x20801010 (reg 0) = some (42, 1) := by decide

theorem test_add_overflow :
    result (start [(0, 2 ^ 64 - 1), (1, 1)] 0) 0x20801011 (fun t => (latched t, t.readReg 0)) =
      some ((true, 2, 2, 0, 0), 2 ^ 64 - 1) := by decide

theorem test_sub : result (start [(0, 5), (1, 3)] 0) 0x21801011 (reg 0) = some (2, 1) := by decide

theorem test_sub_wraps :
    result (startWrap [(0, 3), (1, 5)]) 0x21801011 (reg 0) = some (2 ^ 64 - 2, 1) := by decide

theorem test_mul : result (start [(0, 6), (1, 7)] 0) 0x22801011 (reg 0) = some (42, 1) := by decide

theorem test_mul_wraps :
    result (startWrap [(0, 2 ^ 32 + 1), (1, 2 ^ 32)]) 0x22801011 (reg 0) = some (2 ^ 32, 1) := by decide

theorem test_div : result (start [(0, 7), (1, 2)] 0) 0x23801011 (reg 0) = some (3, 1) := by decide

theorem test_div_by_zero_before_destination :
    result (start [] 0) 0x23908180 latched = some (true, 2, 0, 0, 0) := by decide

theorem test_mod : result (start [(0, 2), (1, 7)] 0) 0x24801011 (reg 0) = some (2, 1) := by decide

theorem test_mod_by_zero : result (start [(0, 7)] 0) 0x24801011 latched = some (true, 2, 1, 0, 0) := by decide

/-- The six comparisons of 3 with 5, of 5 with 5 and of 5 with 3 (95_test_vectors.md 2.8). -/
def comparisons (word : Nat) : List (Option Nat) :=
  [(3, 5), (5, 5), (5, 3)].map fun p => result (start [(0, p.1), (1, p.2)] 0) word (fun t => t.readReg 0)

theorem test_eql : comparisons 0x30801011 = [some 0, some 1, some 0] := by decide

theorem test_neq : comparisons 0x31801011 = [some 1, some 0, some 1] := by decide

theorem test_let : comparisons 0x32801011 = [some 1, some 0, some 0] := by decide

theorem test_leq : comparisons 0x33801011 = [some 1, some 1, some 0] := by decide

theorem test_grt : comparisons 0x34801011 = [some 0, some 0, some 1] := by decide

theorem test_geq : comparisons 0x35801011 = [some 0, some 1, some 1] := by decide

theorem test_sti :
    result ((start [] 0).answerRead (.line [' ', ' ', '0', '0', '7', ' '])) 0x50808000 (fun t => (reg 0 t, t.lines)) =
      some ((7, 1), []) := by decide

theorem test_sti_bad_destination_reads_nothing :
    result ((start [] 0).answerRead (.line ['5'])) 0x50908000 (fun t => (latched t, t.lines)) =
      some ((true, 3, 0, 16, 0), [.line ['5']]) := by decide

theorem test_sto :
    result ((start [(0, 1234)] 0).answerWrite .ok) 0x51808000 (fun t => (t.output, t.pc)) =
      some ([['1', '2', '3', '4']], 1) := by decide

theorem test_sto_write_fails :
    result ((start [] 0).answerWrite .fail) 0x51808000 (fun t => (latched t, t.output)) =
      some ((true, 4, 2, 0, 0), []) := by decide

/-! ### The end of a run (40_cycle.md R126, R127, R128) -/

theorem test_suspended_is_at_no_end : State.reset.runEnd = none := by decide

theorem test_empty_rom_ends_exhausted :
    State.reset.startRun.runEnd = some .exhausted ∧ State.reset.runBlock 0 = some (State.reset.startRun, .ok) := by
  decide

/-! ### Text (95_test_vectors.md 2.2, 2.3, 2.9) -/

theorem test_parse_greatest_word :
    parseUnsigned (2 ^ 64 - 1) (decimal (2 ^ 64 - 1)) = some (2 ^ 64 - 1) ∧
    parseUnsigned (2 ^ 64 - 1) (decimal (2 ^ 64)) = none := by decide

theorem test_parse_rejects :
    ([[], ['-', '1'], ['+', '1'], ['4', 'x'], ['1', ' ', '2']].all fun t => parseUnsigned (2 ^ 64 - 1) t == none) =
      true := by decide

theorem test_assemble_suffix_and_corruption :
    assembleLine ['a', 'd', 'd', ' ', '1', ' ', '0', '0', '7', 'r', ' ', '1', 'r'] = .ok 0x20811711#32 ∧
    assembleLine ['s', 'e', 't', ' ', '0', ' ', '6', '4', 'r'] = .ok 0x03805000#32 := by decide

theorem test_assemble_hlt_takes_anything : assembleLine ['h', 'l', 't', 'x', 'y', 'z'] = .ok 0x00000000#32 := by decide

theorem test_assemble_mismatch :
    assembleLine ['a', 'd', 'd', ' ', '0', ' ', '1', 'x'] = .error ['x'] ∧
    assembleLine ['s', 'e', 't', ' ', '0', ' ', '2', '5', '6'] = .error ['2', '5', '6'] := by decide

theorem test_disassemble :
    disassemble 0x04831500#32 = ['c', 'p', 'y', ' ', '3', 'i', ' ', '5', 'r'] ∧
    disassemble 0x05808182#32 =
      ['i', 'n', 'v', 'a', 'l', 'i', 'd', ' ', '0', 'i', ' ', '1', 'i', ' ', '2', 'i'] := by decide

/-! ### Witnesses: states and operands that meet the hypotheses of a statement, clause by clause, at the boundary values
where clauses meet. A register operand gives a resolved value of any size, so `regs` of `start` sets the boundaries. -/

/-- A running block at index `pc` of the ROM `words`. -/
def running (s : State) (words : List InsnWord) : State := { s with run := .running, rom := words }

/-- A block that has latched UnknownOpcode at index 0. -/
def faulted : State :=
  { running State.reset [0x05000000#32] with
    fault := { valid := true, cause := 1, sub := 0, fpc := 0, fword := 0x05000000#32, info := 5 } }

theorem witness_OperandModeTable :
    [0x80#8, 0xFF#8].all (fun b => decide (0x80 ≤ b.toNat)) = true ∧
    [0x40#8, 0x7F#8].all (fun b =>
      decide ((0x40 ≤ b.toNat ∧ b.toNat ≤ 0x7F) ∧
        (start8 [] 192).pc + b.toNat % 64 ≤ (start8 [] 192).maxWord)) = true ∧
    [0x10#8, 0x3F#8].all (fun b => decide (0x10 ≤ b.toNat ∧ b.toNat ≤ 0x3F)) = true ∧
    [0x00#8, 0x0F#8].all (fun b => decide (b.toNat ≤ 0x0F)) = true := by decide

theorem witness_ResolutionExamples :
    (start [(2, 7)] 10).readReg 2 = 7 ∧ (start [(2, 7)] 10).pc = 10 ∧ 11 ≤ (start [(2, 7)] 10).maxWord := by decide

theorem witness_DecodeOfEncode : (Instr.str (.off 63) (.reg 3 15) (.narrow 15)).wf = true := by decide

theorem witness_EncodeOfDecode : decodeWord 0x03803000#32 = .ok (.set (.imm 0) (.reg 3 0) (.narrow 0)) := by decide

/-- Both ends of each of the five illegal ranges. -/
theorem witness_UnknownOpcodeIsLatched :
    [0x05, 0x0F, 0x12, 0x1F, 0x25, 0x2F, 0x36, 0x4F, 0x52, 0xFF].all (fun n =>
      let w := packWord (BitVec.ofNat 8 n) 0x40#8 0x81#8 0x82#8
      let s := running (start [] 0) [w]
      let o := (opcodeByte w).toNat
      decide (s.run = .running ∧ s.fault.valid = false ∧ s.rom[s.pc]? = some w ∧
        ((0x05 ≤ o ∧ o ≤ 0x0F) ∨ (0x12 ≤ o ∧ o ≤ 0x1F) ∨ (0x25 ≤ o ∧ o ≤ 0x2F) ∨ (0x36 ≤ o ∧ o ≤ 0x4F) ∨
          (0x52 ≤ o ∧ o ≤ 0xFF)))) = true := by decide

theorem witness_StepRunsDecodedInstruction :
    let s := running (start [] 1) [0x00000000#32, 0x03804300#32]
    s.run = .running ∧ s.fault.valid = false ∧ s.rom[s.pc]? = some 0x03804300#32 ∧
      decodeWord 0x03804300#32 = .ok (.set (.imm 0) (.off 3) (.narrow 0)) ∧
      (Instr.set (.imm 0) (.off 3) (.narrow 0)).wf = true := by decide

theorem witness_StepDoesNothingUnlessEnabled :
    State.reset.run ≠ .running ∧ faulted.fault.valid = true ∧
    (running (start [] 1) [0x00000000#32]).rom.length ≤ (running (start [] 1) [0x00000000#32]).pc := by decide

theorem witness_HltHalts :
    (start8 [] 254).ResolvesTo (.narrow 0) (.off 1) (.imm 7) 0 255 7 ∧
    (start8 [] 254).pc + 1 ≤ (start8 [] 254).maxWord := ⟨⟨rfl, rfl, rfl⟩, by decide⟩

theorem witness_LdrLoads :
    (start [(1, 65535)] 0).ResolvesTo (.imm 15) (.reg 1 1) (.narrow 0) 15 65535 0 ∧
    65535 < (start [(1, 65535)] 0).cfg.memWords ∧
    (start [(1, 65535)] 0).pc + 1 ≤ (start [(1, 65535)] 0).maxWord := ⟨⟨rfl, rfl, rfl⟩, by decide⟩

theorem witness_StrStores :
    let s := (start [(1, 65535)] 0).memWrite 9 7
    s.ResolvesTo (.reg 1 1) (.imm 15) (.narrow 0) 65535 15 0 ∧
    65535 < s.cfg.memWords ∧ s.pc + 1 ≤ s.maxWord ∧ s.mem.wf = true := ⟨⟨rfl, rfl, rfl⟩, by decide⟩

theorem witness_SetWritesOrFaults :
    (start [] 0).ResolvesTo (.imm 15) (.imm 9) (.narrow 0) 15 9 0 ∧ (start [] 0).pc + 1 ≤ (start [] 0).maxWord ∧
    (start [] 0).ResolvesTo (.imm 16) (.imm 9) (.narrow 0) 16 9 0 :=
  ⟨⟨rfl, rfl, rfl⟩, by decide, ⟨rfl, rfl, rfl⟩⟩

theorem witness_CpyCopies :
    (start [] 0).ResolvesTo (.imm 15) (.imm 15) (.narrow 0) 15 15 0 ∧
    (start [] 0).pc + 1 ≤ (start [] 0).maxWord := ⟨⟨rfl, rfl, rfl⟩, by decide⟩

theorem witness_MoveFaultOrder :
    let s := start [(1, 65536), (2, 65535)] 0
    (s.ResolvesTo (.imm 16) (.reg 1 1) (.narrow 0) 16 65536 0 ∧ s.cfg.memWords ≤ 65536) ∧
    (s.ResolvesTo (.imm 16) (.reg 1 2) (.narrow 0) 16 65535 0 ∧ 65535 < s.cfg.memWords) ∧
    s.ResolvesTo (.reg 1 1) (.imm 16) (.narrow 0) 65536 16 0 ∧
    s.ResolvesTo (.reg 1 1) (.imm 15) (.narrow 0) 65536 15 0 ∧
    s.ResolvesTo (.imm 16) (.imm 16) (.narrow 0) 16 16 0 ∧ s.ResolvesTo (.imm 16) (.imm 15) (.narrow 0) 16 15 0 :=
  ⟨⟨⟨rfl, rfl, rfl⟩, by decide⟩, ⟨⟨rfl, rfl, rfl⟩, by decide⟩, ⟨rfl, rfl, rfl⟩, ⟨rfl, rfl, rfl⟩, ⟨rfl, rfl, rfl⟩,
    ⟨rfl, rfl, rfl⟩⟩

theorem witness_BranchNotTaken :
    (start8 [] 254).ResolvesTo (.imm 127) (.imm 0) (.imm 0) 127 0 0 ∧
    (start8 [] 254).ResolvesTo (.imm 127) (.imm 1) (.imm 0) 127 1 0 ∧
    (start8 [] 254).pc + 1 ≤ (start8 [] 254).maxWord := ⟨⟨rfl, rfl, rfl⟩, ⟨rfl, rfl, rfl⟩, by decide⟩

theorem witness_BranchForward :
    (start8 [] 127).ResolvesTo (.imm 127) (.imm 1) (.imm 1) 127 1 1 ∧
    (start8 [] 127).ResolvesTo (.imm 127) (.imm 0) (.imm 1) 127 0 1 ∧
    (start8 [] 127).pc + 127 + 1 ≤ (start8 [] 127).maxWord := ⟨⟨rfl, rfl, rfl⟩, ⟨rfl, rfl, rfl⟩, by decide⟩

theorem witness_BranchBackward :
    (start [] 4).ResolvesTo (.imm 4) (.imm 1) (.imm 0) 4 1 0 ∧
    (start [] 4).ResolvesTo (.imm 4) (.imm 0) (.imm 0) 4 0 0 ∧
    4 ≤ (start [] 4).pc ∧ (start [] 4).pc - 4 + 1 ≤ (start [] 4).maxWord :=
  ⟨⟨rfl, rfl, rfl⟩, ⟨rfl, rfl, rfl⟩, by decide⟩

theorem witness_BranchFaults :
    ((start [] 4).ResolvesTo (.imm 5) (.imm 1) (.imm 0) 5 1 0 ∧
      (start [] 4).ResolvesTo (.imm 5) (.imm 0) (.imm 0) 5 0 0 ∧ (start [] 4).pc < 5) ∧
    ((start8 [] 255).ResolvesTo (.imm 0) (.imm 1) (.imm 0) 0 1 0 ∧
      (start8 [] 255).ResolvesTo (.imm 0) (.imm 0) (.imm 0) 0 0 0 ∧
      0 ≤ (start8 [] 255).pc ∧ (start8 [] 255).maxWord < (start8 [] 255).pc - 0 + 1) ∧
    (start8 [] 128).ResolvesTo (.imm 127) (.imm 1) (.imm 1) 127 1 1 ∧
    (start8 [] 128).ResolvesTo (.imm 127) (.imm 0) (.imm 1) 127 0 1 ∧
    (start8 [] 128).maxWord < (start8 [] 128).pc + 127 + 1 :=
  ⟨⟨⟨rfl, rfl, rfl⟩, ⟨rfl, rfl, rfl⟩, by decide⟩, ⟨⟨rfl, rfl, rfl⟩, ⟨rfl, rfl, rfl⟩, by decide⟩, ⟨rfl, rfl, rfl⟩,
    ⟨rfl, rfl, rfl⟩, by decide⟩

/-- A `jpt 1 1 0` at index 0 (95_test_vectors.md P6) leaves the pc at 0. -/
theorem witness_IndexZeroIsNeverReached :
    result (start [] 0) 0x10818180 (fun t => t.pc) = some 0 := by decide

theorem witness_PcAfterEveryInstruction :
    let s := start [] 4
    (s.resolveAll (.imm 3) (.imm 1) (.imm 0) = .ok { vd := 3, v1 := 1, v2 := 0 } ∧ s.hasAnswerFor .jpt = true ∧
      s.fault.valid = false) ∧
    exec (.jpt (.imm 3) (.imm 1) (.imm 0)) s = .next { s with pc := 2 } := ⟨⟨rfl, rfl, rfl⟩, rfl⟩

theorem witness_AddSubMulResults :
    let s := start8 [(1, 254), (2, 51)] 0
    (s.ResolvesTo (.imm 15) (.reg 1 1) (.imm 1) 15 254 1 ∧ 254 + 1 ≤ s.maxWord) ∧
    (s.ResolvesTo (.imm 15) (.reg 1 1) (.reg 1 1) 15 254 254 ∧ 254 - 254 ≤ s.maxWord) ∧
    (s.ResolvesTo (.imm 15) (.reg 1 2) (.imm 5) 15 51 5 ∧ 51 * 5 ≤ s.maxWord) ∧ s.pc + 1 ≤ s.maxWord :=
  ⟨⟨⟨rfl, rfl, rfl⟩, by decide⟩, ⟨⟨rfl, rfl, rfl⟩, by decide⟩, ⟨⟨rfl, rfl, rfl⟩, by decide⟩, by decide⟩

theorem witness_OverflowFaults :
    let s := start8 [(1, 255), (2, 128)] 0
    (s.ResolvesTo (.imm 16) (.reg 1 1) (.imm 1) 16 255 1 ∧ s.maxWord < 255 + 1) ∧
    (s.ResolvesTo (.imm 0) (.imm 0) (.imm 1) 0 0 1 ∧ 0 < 1) ∧
    (s.ResolvesTo (.imm 0) (.reg 1 2) (.imm 2) 0 128 2 ∧ s.maxWord < 128 * 2) ∧ s.cfg.overflow = .fault :=
  ⟨⟨⟨rfl, rfl, rfl⟩, by decide⟩, ⟨⟨rfl, rfl, rfl⟩, by decide⟩, ⟨⟨rfl, rfl, rfl⟩, by decide⟩, rfl⟩

theorem witness_OverflowWraps :
    let s := startWrap [(1, 2 ^ 64 - 1), (2, 2 ^ 63)]
    (s.ResolvesTo (.imm 15) (.reg 1 1) (.imm 1) 15 (2 ^ 64 - 1) 1 ∧ s.maxWord < 2 ^ 64 - 1 + 1) ∧
    (s.ResolvesTo (.imm 15) (.imm 0) (.reg 1 1) 15 0 (2 ^ 64 - 1) ∧ 2 ^ 64 - 1 ≤ s.maxWord) ∧
    (s.ResolvesTo (.imm 15) (.reg 1 2) (.imm 2) 15 (2 ^ 63) 2 ∧ s.maxWord < 2 ^ 63 * 2) ∧
    s.cfg.overflow = .wrap ∧ s.pc + 1 ≤ s.maxWord :=
  ⟨⟨⟨rfl, rfl, rfl⟩, by decide⟩, ⟨⟨rfl, rfl, rfl⟩, by decide⟩, ⟨⟨rfl, rfl, rfl⟩, by decide⟩, rfl, by decide⟩

theorem witness_DivModResults :
    (start [] 0).ResolvesTo (.imm 15) (.imm 7) (.imm 1) 15 7 1 ∧
    (start [] 0).ResolvesTo (.imm 15) (.imm 2) (.imm 7) 15 2 7 ∧ (start [] 0).pc + 1 ≤ (start [] 0).maxWord :=
  ⟨⟨rfl, rfl, rfl⟩, ⟨rfl, rfl, rfl⟩, by decide⟩

theorem witness_ZeroDivisorFaults :
    (start [] 0).ResolvesTo (.imm 16) (.imm 0) (.imm 0) 16 0 0 := ⟨rfl, rfl, rfl⟩

theorem witness_ComparisonResults :
    (start8 [] 254).ResolvesTo (.imm 15) (.imm 5) (.imm 5) 15 5 5 ∧
    (start8 [] 254).pc + 1 ≤ (start8 [] 254).maxWord := ⟨⟨rfl, rfl, rfl⟩, by decide⟩

theorem witness_DestinationIndexChecked :
    (let s := start8 [(1, 254), (2, 51)] 0
     (s.ResolvesTo (.imm 16) (.reg 1 1) (.imm 1) 16 254 1 ∧ 254 + 1 ≤ s.maxWord) ∧
     (s.ResolvesTo (.imm 16) (.reg 1 1) (.reg 1 1) 16 254 254 ∧ 254 - 254 ≤ s.maxWord) ∧
     (s.ResolvesTo (.imm 16) (.reg 1 2) (.imm 5) 16 51 5 ∧ 51 * 5 ≤ s.maxWord) ∧
     s.ResolvesTo (.imm 16) (.imm 7) (.imm 1) 16 7 1) ∧
    (let s := startWrap [(1, 2 ^ 64 - 1)]
     s.cfg.overflow = .wrap ∧
       (s.ResolvesTo (.imm 16) (.reg 1 1) (.imm 1) 16 (2 ^ 64 - 1) 1 ∧ s.maxWord < 2 ^ 64 - 1 + 1) ∧
       s.ResolvesTo (.imm 16) (.imm 0) (.imm 1) 16 0 1 ∧
       (s.ResolvesTo (.imm 16) (.reg 1 1) (.imm 2) 16 (2 ^ 64 - 1) 2 ∧ s.maxWord < (2 ^ 64 - 1) * 2)) :=
  ⟨⟨⟨⟨rfl, rfl, rfl⟩, by decide⟩, ⟨⟨rfl, rfl, rfl⟩, by decide⟩, ⟨⟨rfl, rfl, rfl⟩, by decide⟩, ⟨rfl, rfl, rfl⟩⟩,
    rfl, ⟨⟨rfl, rfl, rfl⟩, by decide⟩, ⟨rfl, rfl, rfl⟩, ⟨rfl, rfl, rfl⟩, by decide⟩

theorem witness_StiReadsNumber :
    let s := (start8 [] 0).answerRead (.line ['2', '5', '5'])
    s.ResolvesTo (.imm 15) (.imm 0) (.narrow 0) 15 0 0 ∧ s.lines = .line ['2', '5', '5'] :: [] ∧
    parseUnsigned s.maxWord ['2', '5', '5'] = some 255 ∧ s.pc + 1 ≤ s.maxWord := ⟨⟨rfl, rfl, rfl⟩, by decide⟩

theorem witness_StiFaults :
    (start8 [] 0).ResolvesTo (.imm 16) (.imm 0) (.narrow 0) 16 0 0 ∧
    (let s := (start8 [] 0).answerRead .fail
     s.ResolvesTo (.imm 15) (.imm 0) (.narrow 0) 15 0 0 ∧ s.lines = .fail :: []) ∧
    (let s := (start8 [] 0).answerRead (.line ['2', '5', '6'])
     s.ResolvesTo (.imm 15) (.imm 0) (.narrow 0) 15 0 0 ∧ s.lines = .line ['2', '5', '6'] :: [] ∧
       parseUnsigned s.maxWord ['2', '5', '6'] = none) :=
  ⟨⟨rfl, rfl, rfl⟩, ⟨⟨rfl, rfl, rfl⟩, rfl⟩, ⟨rfl, rfl, rfl⟩, by decide⟩

theorem witness_StoWritesDecimal :
    let s := (start8 [(15, 7)] 254).answerWrite .ok
    s.ResolvesTo (.imm 15) (.imm 0) (.narrow 0) 15 0 0 ∧ s.acks = .ok :: [] ∧ s.pc + 1 ≤ s.maxWord :=
  ⟨⟨rfl, rfl, rfl⟩, by decide⟩

theorem witness_StoFaults :
    (start [] 0).ResolvesTo (.imm 16) (.imm 0) (.narrow 0) 16 0 0 ∧
    (let s := (start [] 0).answerWrite .fail
     s.ResolvesTo (.imm 15) (.imm 0) (.narrow 0) 15 0 0 ∧ s.acks = .fail :: []) :=
  ⟨⟨rfl, rfl, rfl⟩, ⟨rfl, rfl, rfl⟩, rfl⟩

theorem witness_ConsoleWaitsForHost :
    ((start [] 0).ResolvesTo (.imm 15) (.imm 0) (.narrow 0) 15 0 0 ∧ (start [] 0).lines = [] ∧
      (start [] 0).acks = []) ∧
    (running State.reset [0x50808000#32]).blocked = true ∧ (running State.reset [0x51808000#32]).blocked = true :=
  ⟨⟨⟨rfl, rfl, rfl⟩, rfl, rfl⟩, by decide⟩

/-- An offset of 10 at pc 246, one beyond the greatest 8-bit word, as the first, second and third operand. -/
theorem witness_OperandFaultsComeFirst :
    let s := start8 [] 246
    s.maxWord < s.pc + (10#6).toNat ∧
    (Instr.set (.off 10) (.imm 1) (.narrow 0)).operands.1 = .off 10 ∧
    (s.resolve (.imm 16) = .ok 16 ∧ (Instr.set (.imm 16) (.off 10) (.narrow 0)).operands.2.1 = .off 10) ∧
    s.resolve (.imm 1) = .ok 1 ∧ (Instr.set (.imm 16) (.imm 1) (.off 10)).operands.2.2 = .off 10 := by decide

/-- At the greatest 8-bit pc: `sti` waits, `set` latches. -/
theorem witness_PcStaysInRange :
    let s := start8 [] 255
    s.maxWord < s.pc + 1 ∧
    (exec (.sti (.imm 0) (.imm 1) (.narrow 0)) s = .next s ∧ s.hasAnswerFor .sti = false) ∧
    exec (.set (.imm 0) (.imm 1) (.narrow 0)) s = .next (s.latching 3 2 0) := ⟨by decide, ⟨rfl, rfl⟩, rfl⟩

/-- The greatest 8-bit pc, with operands that meet the checks of each instruction at their boundaries. -/
theorem witness_IncrementOverflowLatches :
    let s := { start8 [(1, 254), (2, 51)] 255 with
      lines := [.line ['2', '5', '5']], acks := [.ok], cfg := { Config.default with wordBits := 8, memWords := 16 } }
    s.maxWord < s.pc + 1 ∧
    (s.ResolvesTo (.imm 15) (.imm 15) (.imm 1) 15 15 1 ∧ 15 < s.cfg.memWords) ∧
    s.ResolvesTo (.imm 15) (.imm 0) (.imm 1) 15 0 1 ∧
    (s.ResolvesTo (.imm 15) (.reg 1 1) (.imm 1) 15 254 1 ∧ 254 + 1 ≤ s.maxWord ∧ 1 ≤ 254 ∧ 254 - 1 ≤ s.maxWord) ∧
    (s.ResolvesTo (.imm 15) (.reg 1 2) (.imm 5) 15 51 5 ∧ 51 * 5 ≤ s.maxWord) ∧
    (startWrap []).cfg.overflow = .wrap ∧
    (s.lines = .line ['2', '5', '5'] :: [] ∧ parseUnsigned s.maxWord ['2', '5', '5'] = some 255) ∧
    s.acks = .ok :: [] :=
  ⟨by decide, ⟨⟨rfl, rfl, rfl⟩, by decide⟩, ⟨rfl, rfl, rfl⟩, ⟨⟨rfl, rfl, rfl⟩, by decide⟩,
    ⟨⟨rfl, rfl, rfl⟩, by decide⟩, rfl, by decide, rfl⟩

/-- A line that is no number: the step latches IOFailure(Parse) and the line is consumed. -/
theorem witness_FaultsArePrecise :
    let s := running ((start [] 0).answerRead (.line ['x'])) [0x50808000#32]
    s.fault.valid = false ∧
    (match step s with
      | .next t => t.fault.valid && t.fault.cause == 4 && t.lines == []
      | .fault _ => false
      | .refused _ => false) = true := by decide

theorem witness_IoFailureOnlyByConsole :
    let s := (start [] 0).answerWrite .fail
    s.fault.valid = false ∧
    exec (.sto (.imm 0) (.imm 0) (.narrow 0)) s =
      .next { s with
        acks := []
        fault := { valid := true, cause := 4, sub := 2, fpc := 0, fword := 0#32, info := 0 } } := ⟨rfl, rfl⟩

theorem witness_FaultStaysUntilLoad :
    faulted.fault.valid = true ∧ [0x00000000#32].length ≤ 2 ^ faulted.cfg.wordBits := by decide

/-- The invariant holds of a running block with a word in memory, and its step answers a next state. -/
theorem witness_EveryStepKeepsInvariant :
    (running ((start [(1, 7)] 0).memWrite 9 7) [0x02448100#32]).Inv ∧
    (match step (running ((start [(1, 7)] 0).memWrite 9 7) [0x02448100#32]) with
      | .next t => t.mem == [(4, 7), (9, 7)]
      | .fault _ => false
      | .refused _ => false) = true :=
  ⟨⟨by decide, by decide, by decide, by decide, by decide, by decide, fun h => absurd h (by decide)⟩, by decide⟩

theorem witness_ConstructionMeetsInvariant : 8 ≤ (start8 [] 0).cfg.wordBits := by decide

/-- The invariant with a latched fault, and a load that is accepted. -/
theorem witness_HostOperationsKeepInvariant :
    faulted.Inv ∧ ∃ t, faulted.load [0x00000000#32] = .ok t :=
  ⟨⟨by decide, by decide, by decide, by decide, by decide, by decide,
      fun _ => ⟨by decide, by decide, by decide, by decide, by decide⟩⟩, _, rfl⟩

theorem witness_EqualReadsEqualMemory :
    let m : Memory := Memory.write (Memory.write [] 9 7) 4 1
    let n : Memory := Memory.write (Memory.write [] 4 1) 9 7
    m.wf = true ∧ n.wf = true ∧ ∀ a, m.read a = n.read a := ⟨by decide, by decide, fun _ => rfl⟩

theorem witness_RomAndParametersNeverChange :
    let s := running State.reset [0x03808100#32]
    Sys2Proof.core.run 1 s = .next (s.commit { nextPc := 0, reg := some (0, 1) }) := rfl

theorem witness_MemoryOnlyByLdrAndStr :
    let s := start [(1, 7)] 5
    (s.ResolvesTo (.imm 3) (.imm 100) (.narrow 0) 3 100 0 ∧
      exec (.ldr (.imm 3) (.imm 100) (.narrow 0)) s = .next (s.commit { nextPc := 5, reg := some (3, 0) })) ∧
    (s.ResolvesTo (.off 4) (.imm 1) (.narrow 0) 9 1 0 ∧
      exec (.str (.off 4) (.imm 1) (.narrow 0)) s = .next (s.commit { nextPc := 5, mem := some (9, 7) })) ∧
    exec (.set (.imm 3) (.imm 1) (.narrow 0)) s = .next (s.commit { nextPc := 5, reg := some (3, 1) }) :=
  ⟨⟨⟨rfl, rfl, rfl⟩, rfl⟩, ⟨⟨rfl, rfl, rfl⟩, rfl⟩, rfl⟩

theorem witness_OnlyDestinationRegisterChanges :
    (let s := start [] 0
     s.resolveAll (.imm 15) (.imm 1) (.narrow 0) = .ok { vd := 15, v1 := 1, v2 := 0 } ∧
       exec (.set (.imm 15) (.imm 1) (.narrow 0)) s = .next (s.commit { nextPc := 0, reg := some (15, 1) })) ∧
    (let s := start8 [] 246
     s.resolveAll (.imm 15) (.off 10) (.narrow 0) = .error { kind := .operand, info := 0 } ∧
       exec (.set (.imm 15) (.off 10) (.narrow 0)) s = .next (s.takeFault { kind := .operand, info := 0 })) :=
  ⟨⟨rfl, rfl⟩, rfl, rfl⟩

theorem witness_RunStateTransitions :
    result (start [] 6) 0x00000000 (fun t => t.run) = some .halting := by decide

/-- An unknown opcode byte, an opcode of each of the groups 0x2 and 0x3, and two instructions that answer a next state:
`jpt` drives no write signal but `br`, and `set` none but `rf_we`. -/
theorem witness_ControlSignalsGovernWrites :
    decodeOp 0x05 = none ∧ Opcode.mod.group = 2 ∧ Opcode.geq.group = 3 ∧
    controls (Instr.jpt (.imm 3) (.imm 1) (.imm 1)).opcode = { cls := .branch, aluFn := some .nz, br := true } ∧
    exec (.jpt (.imm 3) (.imm 1) (.imm 1)) (start [] 4) = .next { start [] 4 with pc := 8 } ∧
    controls (Instr.set (.imm 3) (.imm 1) (.imm 1)).opcode = { cls := .move, aluFn := some .pass1, rfWe := true } ∧
    exec (.set (.imm 3) (.imm 1) (.imm 1)) (start [] 4) =
      .next ((start [] 4).commit { nextPc := 4, reg := some (3, 1) }) := ⟨rfl, rfl, rfl, rfl, rfl, rfl, rfl⟩

theorem witness_RomHoldsNoData :
    let s := running State.reset [0x00000000#32]
    s.fault.valid = false ∧
    exec (.hlt (.narrow 0) (.narrow 0) (.narrow 0)) s = .next { s with run := .halting, pc := 1 } := ⟨rfl, rfl⟩

theorem witness_ConsoleOrder :
    let s := running ((State.reset.answerWrite .ok).answerRead .fail) [0x51808000#32, 0x50808000#32]
    ∃ t, Sys2Proof.core.run 2 s = .next t ∧ t.output = [['0']] ∧ t.lines = [] ∧ t.acks = [] :=
  ⟨_, rfl, by decide, by decide, by decide⟩

/-- One step, a store to address 9, seen at the neighbouring address 10. -/
theorem witness_MemoryHoldsLastStore :
    let s := running (start [(1, 7)] 0) [0x02898100#32]
    (∀ k u, k < 1 → Sys2Proof.core.run k s = .next u → u.storesTo 10 = false) ∧
    Sys2Proof.core.run 1 s = .next (s.commit { nextPc := 0, mem := some (9, 7) }) := by
  refine ⟨fun k u hk h => ?_, rfl⟩
  obtain rfl : k = 0 := by omega
  cases h
  decide

/-- One `hlt`, run from Suspended and, the pc back at 0, from Halting; an empty ROM; and a program that latches a fault. -/
theorem witness_RunIsRepeatedStep :
    let s := { State.reset with rom := [0x00000000#32] }
    let t := { s with run := .halting, pc := 1 }
    s.fault.valid = false ∧ s.run = .suspended ∧ s.runBlock 5 = some (t, .ok) ∧ t.runEnd = some .halted ∧
    ({ s with run := .halting } : State).runBlock 5 = some (t, .ok) ∧
    State.reset.rom = [] ∧ (running State.reset []).runEnd = some .exhausted ∧
    ({ State.reset with rom := [0x05000000#32] } : State).runBlock 5 = some (faulted, .fault faulted.fault) :=
  ⟨rfl, rfl, rfl, rfl, rfl, rfl, rfl, rfl⟩

theorem witness_LoadEffects :
    [0x00000000#32].length ≤ 2 ^ State.reset.cfg.wordBits ∧
    2 ^ (start8 [] 0).cfg.wordBits < (List.replicate 257 0x00000000#32).length ∧
    [0x00#8, 0x00#8, 0x00#8].length % 4 ≠ 0 := by
  refine ⟨by decide, ?_, by decide⟩
  rw [List.length_replicate]
  decide

theorem witness_DecimalTextParses : [' ', '\t'].all isWhite = true := by decide

/-- 255 is the greatest number of an operand, 256 the least that is malformed, whatever is not a digit after it. -/
theorem witness_OperandTextEncodes :
    255 ≤ 255 ∧ 255 < 256 ∧
    [[], ['i'], ['r'], ['o'], [' ', '1'], ['x']].all (fun rest => rest.head?.all fun c => !isAsciiDigit c) = true := by
  decide

theorem witness_RenderedOperands :
    0x80 ≤ (0x80#8).toNat ∧ (0x40 ≤ (0x40#8).toNat ∧ (0x7F#8).toNat ≤ 0x7F) ∧
    (0x10 ≤ (0x10#8).toNat ∧ (0x3F#8).toNat ≤ 0x3F) ∧ (0x0F#8).toNat ≤ 0x0F := by decide

/-- `set 0 0r` with the register byte 0x30, `op2` omitted and present. -/
theorem witness_ReassemblyIsIdentical :
    Opcode.set ≠ .hlt ∧ 0x10 ≤ (0x80#8).toNat ∧ 0x10 ≤ (0x30#8).toNat ∧
    (0x00#8 = 0x00#8 ∨ 0x10 ≤ (0x00#8).toNat) ∧ (0x10#8 = 0x00#8 ∨ 0x10 ≤ (0x10#8).toNat) := by decide

end Sys2Proof.Tests
end

namespace Sys2Proof.Machine

/-! ### The pc after an instruction (10_state.md R25) -/

/-- Of the four things an instruction can do, a wait needs an unanswered request and both faults set the latch; the
commit that is left moves the pc to the instruction's own pc result plus 1. -/
theorem Does.pc_of_unlatched {i : Instr} {s t : State} {v : Resolved} (hdoes : Does i s t)
    (hv : s.resolveAll i.operands.1 i.operands.2.1 i.operands.2.2 = .ok v) (hans : s.hasAnswerFor i.opcode = true)
    (ht : t.fault.valid = false) : t.pc = s.pcResult i.opcode v + 1 := by
  cases hdoes with
  | wait hwait => simp [hans] at hwait
  | resolveFault f herr => simp at ht
  | ruleFault s₁ f v' hv' used => simp at ht
  | commit s₁ e v' hv' used shape =>
    obtain rfl : v' = v := Except.ok.inj (hv'.symm.trans hv)
    rw [State.commit_pc, shape.nextPc]

/-- Settles O22, by inversion of `exec` (`exec_does`). -/
theorem pcAfterEveryInstruction : Obligations.PcAfterEveryInstruction :=
  fun _ _ _ _ hv hans _ hexec ht => (exec_does hexec).pc_of_unlatched hv hans ht

end Sys2Proof.Machine

namespace Sys2Proof.Machine

/-! ### What an instruction writes into memory and registers (20_memory.md R50) -/

/-- The console answer an instruction uses is no part of memory. -/
theorem Used.mem {i : Instr} {s s₁ : State} (used : Used i s s₁) : s₁.mem = s.mem := by rw [used.same]

/-- The console answer an instruction uses is no part of the register file. -/
theorem Used.regs {i : Instr} {s s₁ : State} (used : Used i s s₁) : s₁.regs = s.regs := by rw [used.same]

/-- Only `str` has the control signal that writes memory (30_encoding.md R87). -/
theorem controls_memWe_eq_true {o : Opcode} : (controls o).memWe = true ↔ o = .str := by
  cases o <;> simp [controls]

/-- Memory after an instruction is memory before it, or `str` has written the register `v1` at the address `vd`. -/
theorem Does.mem_cases {i : Instr} {s t : State} (hdoes : Does i s t) :
    t.mem = s.mem ∨
    (i.opcode = .str ∧ ∃ v, s.resolveAll i.operands.1 i.operands.2.1 i.operands.2.2 = .ok v ∧
      ∃ j : RegIndex, j.val = v.v1 ∧ t.mem = s.mem.write v.vd (s.readReg j)) := by
  cases hdoes with
  | wait => exact .inl rfl
  | resolveFault => exact .inl rfl
  | ruleFault s₁ f v hv used => exact .inl used.mem
  | commit s₁ e v hv used shape =>
    cases he : e.mem with
    | none => left; simp [he, used.mem]
    | some cell =>
      obtain ⟨a, x⟩ := cell
      obtain ⟨rfl, -, hwe, j, hj, rfl⟩ := shape.mem a x he
      exact .inr ⟨controls_memWe_eq_true.mp hwe, v, hv, j, hj, by simp [he, used.mem]⟩

/-- An instruction without the control signal that writes a register leaves the register file alone. -/
theorem Does.regs_of_rfWe_eq_false {i : Instr} {s t : State} (hdoes : Does i s t)
    (hwe : (controls i.opcode).rfWe = false) : t.regs = s.regs := by
  cases hdoes with
  | wait => rfl
  | resolveFault => rfl
  | ruleFault s₁ f v hv used => exact used.regs
  | commit s₁ e v hv used shape =>
    cases he : e.reg with
    | none => simp [he, used.regs]
    | some dest =>
      obtain ⟨-, hwe', -⟩ := shape.reg dest.1 dest.2 he
      simp [hwe] at hwe'

/-- No instruction but `str` writes memory. -/
theorem exec_mem_of_ne_str {i : Instr} {s t : State} (hi : i.opcode ≠ .str) (hexec : exec i s = .next t) :
    t.mem = s.mem :=
  (exec_does hexec).mem_cases.resolve_right fun ⟨hstr, _⟩ => hi hstr

/-- Everything `ldr` can do (41_move.md R141): take a fault, or write the word at the address `v1` into `x[vd]`. -/
theorem exec_ldr_cases {s t : State} {d a b : Operand} {vd v1 v2 : Nat} (hres : s.ResolvesTo d a b vd v1 v2)
    (hexec : exec (.ldr d a b) s = .next t) :
    (∃ f, t = s.takeFault f) ∨
    ∃ h : vd < 16, t = s.commit { nextPc := s.pc, reg := some (⟨vd, h⟩, s.memRead v1) } := by
  simp only [exec, execLdr, State.perform_ok _ hres.dest hres.op1 hres.op2] at hexec
  rcases State.finish_cases s _ with ⟨f, -, hfin⟩ | ⟨e, -, -, hfin⟩ | ⟨e, hrule, -, hfin⟩ <;>
    obtain rfl := Host.Outcome.next.inj (hexec.symm.trans hfin)
  · exact .inl ⟨f, rfl⟩
  · exact .inl ⟨_, rfl⟩
  · right
    by_cases hmem : v1 < s.cfg.memWords
    · by_cases hreg : vd < 16
      · rw [State.checkMem_of_lt hmem, checkReg_of_lt hreg] at hrule
        exact ⟨hreg, congrArg s.commit (Except.ok.inj hrule).symm⟩
      · rw [State.checkMem_of_lt hmem, checkReg_of_le (Nat.le_of_not_lt hreg)] at hrule
        cases hrule
    · rw [State.checkMem_of_le (Nat.le_of_not_lt hmem)] at hrule
      cases hrule

/-! ### No instruction but `ldr` reads memory (20_memory.md R50) -/

/-- The state with other contents of data memory. -/
def State.withMem (s : State) (m : Memory) : State := { s with mem := m }

/-- The pc check and the commit do not look at memory: from other memory contents the same result leads to the same state
up to memory. -/
theorem State.finish_withMem {s t : State} {r : Except Raised Effect} (m : Memory) (hfin : s.finish r = .next t) :
    ∃ m', (s.withMem m).finish r = .next (t.withMem m') := by
  rcases s.finish_cases r with ⟨f, rfl, h⟩ | ⟨e, rfl, hlt, h⟩ | ⟨e, rfl, hle, h⟩ <;>
    obtain rfl := Host.Outcome.next.inj (hfin.symm.trans h)
  · exact ⟨m, rfl⟩
  · exact ⟨m, State.finish_overflow (s := s.withMem m) hlt⟩
  · exact ⟨((s.withMem m).commit e).mem, State.finish_ok (s := s.withMem m) hle⟩

/-! One equation per case of the two console instructions, used from a state and from the state with other memory. -/

theorem execSti_of_error {s : State} {d a b : Operand} {f : Raised} (hreg : s.consoleReg d a b = .error f) :
    execSti d a b s = s.finish (.error f) := by
  simp only [execSti, hreg, State.finish_error]

theorem execSti_of_lines_nil {s : State} {d a b : Operand} {i : RegIndex} (hreg : s.consoleReg d a b = .ok i)
    (hlines : s.lines = []) : execSti d a b s = .next s := by
  simp only [execSti, hreg, State.readLine, hlines]

theorem execSti_of_lines_cons {s : State} {d a b : Operand} {i : RegIndex} {answer : LineAnswer}
    {rest : List LineAnswer} (hreg : s.consoleReg d a b = .ok i) (hlines : s.lines = answer :: rest) :
    execSti d a b s = ({ s with lines := rest } : State).finish
      (s.numberFrom answer >>= fun n => pure { nextPc := s.pc, reg := some (i, n) }) := by
  simp only [execSti, hreg, State.readLine, hlines]

theorem execSto_of_error {s : State} {d a b : Operand} {f : Raised} (hreg : s.consoleReg d a b = .error f) :
    execSto d a b s = s.finish (.error f) := by
  simp only [execSto, hreg, State.finish_error]

theorem execSto_of_acks_nil {s : State} {d a b : Operand} {i : RegIndex} (hreg : s.consoleReg d a b = .ok i)
    (hacks : s.acks = []) : execSto d a b s = .next s := by
  simp only [execSto, hreg, State.writeAnswer, hacks]

theorem execSto_of_acks_ok {s : State} {d a b : Operand} {i : RegIndex} {rest : List WriteAnswer}
    (hreg : s.consoleReg d a b = .ok i) (hacks : s.acks = .ok :: rest) :
    execSto d a b s = ({ s with acks := rest } : State).finish
      (.ok { nextPc := s.pc, out := some (decimal (s.readReg i)) }) := by
  simp only [execSto, hreg, State.writeAnswer, hacks]

theorem execSto_of_acks_fail {s : State} {d a b : Operand} {i : RegIndex} {rest : List WriteAnswer}
    (hreg : s.consoleReg d a b = .ok i) (hacks : s.acks = .fail :: rest) :
    execSto d a b s = ({ s with acks := rest } : State).finish (.error { kind := .write, info := 0 }) := by
  simp only [execSto, hreg, State.writeAnswer, hacks]

/-- How an instruction ends is the same whatever memory holds: it waits for the console, or it ends with one and the same
result. -/
inductive EndsAlikeInAnyMem (i : Instr) (s : State) : Prop
  | wait (here : exec i s = .next s) (elsewhere : ∀ m, exec i (s.withMem m) = .next (s.withMem m))
  | finish (s₁ : State) (r : Except Raised Effect) (here : exec i s = s₁.finish r)
    (elsewhere : ∀ m, exec i (s.withMem m) = (s₁.withMem m).finish r)

theorem endsAlikeInAnyMem_sti (d a b : Operand) (s : State) : EndsAlikeInAnyMem (.sti d a b) s := by
  cases hreg : s.consoleReg d a b with
  | error f => exact .finish s _ (execSti_of_error hreg) fun m => execSti_of_error (s := s.withMem m) hreg
  | ok i =>
    cases hlines : s.lines with
    | nil =>
      exact .wait (execSti_of_lines_nil hreg hlines) fun m => execSti_of_lines_nil (s := s.withMem m) hreg hlines
    | cons answer rest =>
      exact .finish _ _ (execSti_of_lines_cons hreg hlines) fun m =>
        execSti_of_lines_cons (s := s.withMem m) hreg hlines

theorem endsAlikeInAnyMem_sto (d a b : Operand) (s : State) : EndsAlikeInAnyMem (.sto d a b) s := by
  cases hreg : s.consoleReg d a b with
  | error f => exact .finish s _ (execSto_of_error hreg) fun m => execSto_of_error (s := s.withMem m) hreg
  | ok i =>
    match hacks : s.acks with
    | [] => exact .wait (execSto_of_acks_nil hreg hacks) fun m => execSto_of_acks_nil (s := s.withMem m) hreg hacks
    | .ok :: rest =>
      exact .finish _ _ (execSto_of_acks_ok hreg hacks) fun m => execSto_of_acks_ok (s := s.withMem m) hreg hacks
    | .fail :: rest =>
      exact .finish _ _ (execSto_of_acks_fail hreg hacks) fun m => execSto_of_acks_fail (s := s.withMem m) hreg hacks

/-- Only the rule of `ldr` mentions memory: the two console instructions aside, the rule of any other is the same term in
the state with other memory. -/
theorem endsAlikeInAnyMem_of_ne_ldr (i : Instr) (s : State) (hi : i.opcode ≠ .ldr) : EndsAlikeInAnyMem i s := by
  cases i with
  | ldr d a b => exact absurd rfl hi
  | sti d a b => exact endsAlikeInAnyMem_sti d a b s
  | sto d a b => exact endsAlikeInAnyMem_sto d a b s
  | _ d a b => exact .finish s _ rfl fun _ => rfl

/-- From other memory contents an instruction other than `ldr` leads to the same state up to memory. -/
theorem exec_withMem_of_ne_ldr {i : Instr} {s t : State} (m : Memory) (hi : i.opcode ≠ .ldr)
    (hexec : exec i s = .next t) : ∃ m', exec i (s.withMem m) = .next (t.withMem m') := by
  cases endsAlikeInAnyMem_of_ne_ldr i s hi with
  | wait here elsewhere =>
    obtain rfl := Host.Outcome.next.inj (hexec.symm.trans here)
    exact ⟨m, elsewhere m⟩
  | finish s₁ r here elsewhere =>
    rw [elsewhere m]
    exact State.finish_withMem m (here.symm.trans hexec)

/-- An instruction that neither reads nor writes memory has the same effect whatever memory holds. -/
theorem exec_withMem {i : Instr} {s t : State} (m : Memory) (hldr : i.opcode ≠ .ldr) (hstr : i.opcode ≠ .str)
    (hexec : exec i s = .next t) : exec i (s.withMem m) = .next (t.withMem m) := by
  obtain ⟨m', hm'⟩ := exec_withMem_of_ne_ldr m hldr hexec
  obtain rfl : m' = m := exec_mem_of_ne_str hstr hm'
  exact hm'

/-- Settles O46: `ldr` by the cases of its rule, `str` by what an instruction may write, every other instruction by
writing no memory and reading none. -/
theorem memoryOnlyByLdrAndStr : Obligations.MemoryOnlyByLdrAndStr := by
  refine ⟨fun s t d a b vd v1 v2 hres hexec => ⟨exec_mem_of_ne_str (by simp [Instr.opcode]) hexec, ?_⟩,
    fun s t d a b vd v1 v2 hres hexec => ⟨(exec_does hexec).regs_of_rfWe_eq_false rfl, ?_⟩,
    fun i s t m hldr hstr hexec => ⟨exec_mem_of_ne_str hstr hexec, exec_withMem m hldr hstr hexec⟩⟩
  · rcases exec_ldr_cases hres hexec with ⟨f, rfl⟩ | ⟨hvd, rfl⟩
    · exact .inl rfl
    · exact .inr ⟨hvd, rfl⟩
  · refine (exec_does hexec).mem_cases.imp_right fun ⟨_, v, hv, j, hj, hmem⟩ => ?_
    obtain rfl := Except.ok.inj (hv.symm.trans (State.resolveAll_of_ok hres.dest hres.op1 hres.op2))
    obtain rfl : j.val = v1 := hj
    exact ⟨j.isLt, hmem⟩

end Sys2Proof.Machine

namespace Sys2Proof

/-! ### The word and its four bytes (30_encoding.md R71) -/

theorem packWord_eq_shiftLeft_or (o d a b : Byte) :
    packWord o d a b =
      (o.setWidth 32 <<< 24 ||| d.setWidth 32 <<< 16 ||| a.setWidth 32 <<< 8 ||| b.setWidth 32) :=
  (BitVec.setWidth_eq _).symm.trans BitVec.setWidth_append_append_append_eq_shiftLeft_setWidth_or

theorem bytesOfWord_packWord (o d a b : Byte) : bytesOfWord (packWord o d a b) = [o, d, a, b] := by
  simp only [bytesOfWord, opcodeByte_packWord, destByte_packWord, op1Byte_packWord, op2Byte_packWord]

/-- Each byte field begins where the next one ends, so that joining them one by one gives the bits above the last. -/
theorem packWord_fields (w : InsnWord) : packWord (opcodeByte w) (destByte w) (op1Byte w) (op2Byte w) = w :=
  calc packWord (opcodeByte w) (destByte w) (op1Byte w) (op2Byte w)
    _ = w.extractLsb' 16 16 ++ op1Byte w ++ op2Byte w :=
      congrArg (· ++ op1Byte w ++ op2Byte w) (BitVec.extractLsb'_append_extractLsb'_eq_extractLsb' rfl)
    _ = w.extractLsb' 8 24 ++ op2Byte w :=
      congrArg (· ++ op2Byte w) (BitVec.extractLsb'_append_extractLsb'_eq_extractLsb' rfl)
    _ = w.extractLsb' 0 32 := BitVec.extractLsb'_append_extractLsb'_eq_extractLsb' rfl
    _ = w := BitVec.extractLsb'_eq_self

/-- Settles O1, by joining adjacent bit fields and by the field lemmas of a packed word. -/
theorem wordAndBytesAreInverse : Obligations.WordAndBytesAreInverse :=
  ⟨fun o d a b => ⟨packWord_eq_shiftLeft_or o d a b, bytesOfWord_packWord o d a b⟩, packWord_fields⟩

/-! ### The opcode map (30_encoding.md R82, R83) -/

/-- Only the byte of an opcode decodes to it. -/
theorem code_of_decodeOp {b : Byte} {o : Opcode} (h : decodeOp b = some o) : o.code = b := by
  unfold decodeOp at h
  split at h
  all_goals cases h
  all_goals exact BitVec.eq_of_toNat_eq ‹b.toNat = _›.symm

theorem decodeOp_eq_some_iff {b : Byte} {o : Opcode} : decodeOp b = some o ↔ o.code = b :=
  ⟨code_of_decodeOp, fun h => h ▸ decodeOp_code o⟩

theorem decodeOp_eq_none_iff {b : Byte} : decodeOp b = none ↔ ∀ o : Opcode, o.code ≠ b := by
  simp only [Option.eq_none_iff_forall_ne_some, ne_eq, decodeOp_eq_some_iff]

namespace Machine

theorem mem_allOpcodes (o : Opcode) : o ∈ allOpcodes := by cases o <;> decide

/-- The twenty numbers of the opcode map, in its order. -/
theorem allOpcodes_map_toNat_code :
    (allOpcodes.map fun o => o.code.toNat) =
      [0x00, 0x01, 0x02, 0x03, 0x04, 0x10, 0x11, 0x20, 0x21, 0x22, 0x23, 0x24, 0x30, 0x31, 0x32, 0x33, 0x34, 0x35, 0x50,
        0x51] := rfl

/-- Settles O4: the listed numbers are the codes of all opcodes, and a byte is Unknown when it is the code of none. -/
theorem opcodeMapIsExact : Obligations.OpcodeMapIsExact := by
  refine ⟨by decide, fun b => ?_⟩
  rw [decodeOp_eq_none_iff, ← allOpcodes_map_toNat_code]
  simp [BitVec.toNat_inj, mem_allOpcodes]

end Machine

/-! ### The addressing mode of an operand byte (30_encoding.md R73)

The leading bits that the decoder checks, as ranges of the byte's number. -/

theorem getLsbD_seven_iff (b : Byte) : b.getLsbD 7 = true ↔ 0x80 ≤ b.toNat := by
  have := b.isLt
  simp only [BitVec.getLsbD, Nat.testBit_eq_decide_div_mod_eq, decide_eq_true_eq]
  omega

theorem getLsbD_six_iff (b : Byte) : b.getLsbD 6 = true ↔ 0x40 ≤ b.toNat % 0x80 := by
  simp only [BitVec.getLsbD, Nat.testBit_eq_decide_div_mod_eq, decide_eq_true_eq]
  omega

theorem modeBits_ne_zero_iff (b : Byte) : b.extractLsb' 4 2 ≠ 0#2 ↔ 0x10 ≤ b.toNat % 0x40 := by
  simp only [ne_eq, ← BitVec.toNat_inj, BitVec.extractLsb'_toNat, Nat.shiftRight_eq_div_pow, BitVec.toNat_ofNat]
  omega

theorem toNat_extractLsb'_zero (b : Byte) (n : Nat) : (b.extractLsb' 0 n).toNat = b.toNat % 2 ^ n := by
  rw [BitVec.extractLsb'_toNat, Nat.shiftRight_zero]

theorem decodeOperand_imm {b : Byte} (h : 0x80 ≤ b.toNat) : decodeOperand b = .imm (b.extractLsb' 0 7) :=
  if_pos ((getLsbD_seven_iff b).mpr h)

theorem decodeOperand_off {b : Byte} (hlo : 0x40 ≤ b.toNat) (hhi : b.toNat ≤ 0x7F) :
    decodeOperand b = .off (b.extractLsb' 0 6) := by
  have h7 : ¬ b.getLsbD 7 = true := by rw [getLsbD_seven_iff]; omega
  have h6 : b.getLsbD 6 = true := by rw [getLsbD_six_iff]; omega
  rw [decodeOperand, if_neg h7, if_pos h6]

/-- Below 0x40 the two bits under the leading ones tell a register from a narrow immediate. -/
theorem decodeOperand_of_lt {b : Byte} (h : b.toNat < 0x40) :
    decodeOperand b =
      if b.extractLsb' 4 2 != 0#2 then .reg (b.extractLsb' 4 2) (b.extractLsb' 0 4)
      else .narrow (b.extractLsb' 0 4) := by
  have h7 : ¬ b.getLsbD 7 = true := by rw [getLsbD_seven_iff]; omega
  have h6 : ¬ b.getLsbD 6 = true := by rw [getLsbD_six_iff]; omega
  rw [decodeOperand, if_neg h7, if_neg h6]

theorem decodeOperand_reg {b : Byte} (hlo : 0x10 ≤ b.toNat) (hhi : b.toNat ≤ 0x3F) :
    decodeOperand b = .reg (b.extractLsb' 4 2) (b.extractLsb' 0 4) := by
  have hmode : b.extractLsb' 4 2 ≠ 0#2 := by rw [modeBits_ne_zero_iff]; omega
  rw [decodeOperand_of_lt (by omega), if_pos (bne_iff_ne.mpr hmode)]

theorem decodeOperand_narrow {b : Byte} (h : b.toNat ≤ 0x0F) : decodeOperand b = .narrow (b.extractLsb' 0 4) := by
  have hmode : ¬ b.extractLsb' 4 2 ≠ 0#2 := by rw [modeBits_ne_zero_iff]; omega
  rw [decodeOperand_of_lt (by omega), if_neg (mt bne_iff_ne.mp hmode)]

end Sys2Proof

namespace Sys2Proof.Machine

/-! ### What an operand byte resolves to (30_encoding.md R76) -/

theorem State.resolve_decodeOperand_imm (s : State) {b : Byte} (h : 0x80 ≤ b.toNat) :
    s.resolve (decodeOperand b) = .ok (b.toNat % 128) := by
  simp only [decodeOperand_imm h, State.resolve_imm, toNat_extractLsb'_zero, Nat.reducePow]

theorem State.resolve_decodeOperand_off (s : State) {b : Byte} (hlo : 0x40 ≤ b.toNat) (hhi : b.toNat ≤ 0x7F) :
    s.resolve (decodeOperand b) = s.offset (b.toNat % 64) := by
  simp only [decodeOperand_off hlo hhi, State.resolve_off, toNat_extractLsb'_zero, Nat.reducePow]

theorem State.resolve_decodeOperand_reg (s : State) {b : Byte} (hlo : 0x10 ≤ b.toNat) (hhi : b.toNat ≤ 0x3F) :
    s.resolve (decodeOperand b) = .ok (s.readReg ⟨b.toNat % 16, Nat.mod_lt _ (by decide)⟩) := by
  have hreg : regOfField (b.extractLsb' 0 4) = ⟨b.toNat % 16, Nat.mod_lt _ (by decide)⟩ :=
    Fin.ext (toNat_extractLsb'_zero b 4)
  rw [decodeOperand_reg hlo hhi, State.resolve_reg, hreg]

theorem State.resolve_decodeOperand_narrow (s : State) {b : Byte} (h : b.toNat ≤ 0x0F) :
    s.resolve (decodeOperand b) = .ok (b.toNat % 16) := by
  simp only [decodeOperand_narrow h, State.resolve_narrow, toNat_extractLsb'_zero, Nat.reducePow]

/-- Settles O2: in each range the leading bits single out one mode, whose field is a remainder of the byte's number. -/
theorem operandModeTable : Obligations.OperandModeTable := by
  refine fun b s => ⟨fun h => ⟨?imm, s.resolve_decodeOperand_imm h⟩,
    fun ⟨hlo, hhi⟩ => ⟨?off, fun hsum => ?offset⟩,
    fun ⟨hlo, hhi⟩ => ⟨?reg, s.resolve_decodeOperand_reg hlo hhi⟩,
    fun h => ⟨?narrow, s.resolve_decodeOperand_narrow h⟩⟩
  case imm => exact ⟨_, decodeOperand_imm h, toNat_extractLsb'_zero b 7⟩
  case off => exact ⟨_, decodeOperand_off hlo hhi, toNat_extractLsb'_zero b 6⟩
  case offset => rw [s.resolve_decodeOperand_off hlo hhi, State.offset_of_le hsum]
  case reg =>
    exact ⟨_, _, decodeOperand_reg hlo hhi, (modeBits_ne_zero_iff b).mpr (by omega), toNat_extractLsb'_zero b 4⟩
  case narrow => exact ⟨_, decodeOperand_narrow h, toNat_extractLsb'_zero b 4⟩

/-- Settles O3: the three bytes lie in the immediate, the register and the offset range. -/
theorem resolutionExamples : Obligations.ResolutionExamples := by
  refine fun s => ⟨s.resolve_decodeOperand_imm (by decide), fun hreg => ?_, fun hpc hword => ?_⟩
  · exact (s.resolve_decodeOperand_reg (by decide) (by decide)).trans (congrArg Except.ok hreg)
  · have hsum : s.pc + 1 = 11 := by rw [hpc]
    have hoff : s.resolve (decodeOperand 0x41#8) = s.offset 1 := s.resolve_decodeOperand_off (by decide) (by decide)
    rw [hoff, State.offset_of_le (hsum.le.trans hword), hsum]

/-! ### Assembly text (30_encoding.md R100, R106) -/

/-- Settles O57, by evaluating the assembler on the three lines. -/
theorem assemblerExamples : Obligations.AssemblerExamples := ⟨by decide, by decide, by decide⟩

/-- Settles O59: the text of each range's mode, at the value that the byte's number leaves. -/
theorem renderedOperands : Obligations.RenderedOperands := by
  refine fun b => ⟨fun h => ?_, fun ⟨hlo, hhi⟩ => ?_, fun ⟨hlo, hhi⟩ => ?_, fun h => ?_⟩
  · simp only [renderOperand, decodeOperand_imm h, toNat_extractLsb'_zero, Nat.reducePow]
  · simp only [renderOperand, decodeOperand_off hlo hhi, toNat_extractLsb'_zero, Nat.reducePow]
  · simp only [renderOperand, decodeOperand_reg hlo hhi, toNat_extractLsb'_zero, Nat.reducePow]
  · simp only [renderOperand, decodeOperand_narrow h, toNat_extractLsb'_zero, Nat.reducePow]

end Sys2Proof.Machine

namespace Sys2Proof.Machine

/-! ### The fault latch after an instruction (60_exceptions.md R224, R226) -/

/-- The console answer an instruction uses is no part of what a fault records: the latch is the one written in the state
before. -/
theorem Used.takeFault_fault {i : Instr} {s s₁ : State} (used : Used i s s₁) (f : Raised) :
    (s₁.takeFault f).fault = (s.takeFault f).fault := by
  rw [used.same]; rfl

/-- The console answer an instruction uses is no part of the latch. -/
theorem Used.fault {i : Instr} {s s₁ : State} (used : Used i s s₁) : s₁.fault = s.fault := by rw [used.same]

/-- The latch after an instruction is the latch before it, or it records a fault that the instruction has raised; only
the console instructions raise one with the cause IOFailure. -/
theorem Does.fault_cases {i : Instr} {s t : State} (hdoes : Does i s t) :
    t.fault = s.fault ∨
    ∃ f : Raised, t.fault = (s.takeFault f).fault ∧ (f.kind.cause = 4 → i.opcode = .sti ∨ i.opcode = .sto) := by
  cases hdoes with
  | wait => exact .inl rfl
  | resolveFault f _ kind => exact .inr ⟨f, rfl, fun hio => absurd hio kind⟩
  | ruleFault s₁ f _ _ used kind => exact .inr ⟨f, used.takeFault_fault f, kind⟩
  | commit s₁ e _ _ used => exact .inl used.fault

/-- Settles O39, by inversion of `exec`: a latch that was clear and is valid now records a fault of the instruction. -/
theorem ioFailureOnlyByConsole : Obligations.IoFailureOnlyByConsole := by
  intro i s t hexec hs ht hcause
  rcases (exec_does hexec).fault_cases with hsame | ⟨f, hlatch, hio⟩
  · rw [hsame, hs] at ht
    cases ht
  · rw [hlatch] at hcause
    exact hio hcause

end Sys2Proof.Machine

namespace Sys2Proof

/-! ### Operand bytes and back (30_encoding.md R73) -/

/-- Appending bit vectors is positional: the left one counts multiples of the right one's range. -/
theorem toNat_append_eq_mul_add {m n : Nat} (x : BitVec m) (y : BitVec n) :
    (x ++ y).toNat = x.toNat * 2 ^ n + y.toNat := by
  rw [BitVec.toNat_append, ← Nat.shiftLeft_add_eq_or_of_lt y.isLt, Nat.shiftLeft_eq]

/-! The number of the byte of each mode: the mode's leading bits, then the value. -/

theorem toNat_encodeOperand_imm (v : BitVec 7) : (encodeOperand (.imm v)).toNat = 0x80 + v.toNat := by
  simp only [encodeOperand, toNat_append_eq_mul_add, BitVec.toNat_ofNat, Nat.reducePow, Nat.reduceMod, Nat.reduceMul]

theorem toNat_encodeOperand_off (v : BitVec 6) : (encodeOperand (.off v)).toNat = 0x40 + v.toNat := by
  simp only [encodeOperand, toNat_append_eq_mul_add, BitVec.toNat_ofNat, Nat.reducePow, Nat.reduceMod, Nat.reduceMul]

theorem toNat_encodeOperand_reg (mm : BitVec 2) (r : BitVec 4) :
    (encodeOperand (.reg mm r)).toNat = 16 * mm.toNat + r.toNat := by
  simp only [encodeOperand, toNat_append_eq_mul_add, BitVec.toNat_ofNat, Nat.reducePow]
  omega

theorem toNat_encodeOperand_narrow (v : BitVec 4) : (encodeOperand (.narrow v)).toNat = v.toNat := by
  simp only [encodeOperand, toNat_append_eq_mul_add, BitVec.toNat_ofNat, Nat.reducePow]
  omega

/-- Every byte is the byte of the operand that it decodes to. -/
theorem encodeOperand_decodeOperand (b : Byte) : encodeOperand (decodeOperand b) = b := by
  apply BitVec.eq_of_toNat_eq
  have hb := b.isLt
  rcases Nat.lt_or_ge b.toNat 0x10 with h | hreg
  · rw [decodeOperand_narrow (Nat.le_of_lt_succ h), toNat_encodeOperand_narrow, toNat_extractLsb'_zero]
    omega
  rcases Nat.lt_or_ge b.toNat 0x40 with h | hoff
  · rw [decodeOperand_reg hreg (Nat.le_of_lt_succ h), toNat_encodeOperand_reg, toNat_extractLsb'_zero,
      BitVec.extractLsb'_toNat, Nat.shiftRight_eq_div_pow]
    omega
  rcases Nat.lt_or_ge b.toNat 0x80 with h | himm
  · rw [decodeOperand_off hoff (Nat.le_of_lt_succ h), toNat_encodeOperand_off, toNat_extractLsb'_zero]
    omega
  · rw [decodeOperand_imm himm, toNat_encodeOperand_imm, toNat_extractLsb'_zero]
    omega

/-- The decoder reads no operand that a byte does not have: a register operand comes with mode bits that are not 00. -/
theorem wf_decodeOperand (b : Byte) : (decodeOperand b).wf = true := by
  unfold decodeOperand
  split
  · rfl
  split
  · rfl
  split
  · assumption
  · rfl

/-- The leading bits of the byte of a well-formed operand select its mode again. -/
theorem decodeOperand_encodeOperand {o : Operand} (h : o.wf = true) : decodeOperand (encodeOperand o) = o := by
  cases o with
  | imm v =>
    have hn := toNat_encodeOperand_imm v
    rw [decodeOperand_imm (by omega)]
    exact congrArg Operand.imm BitVec.extractLsb'_append_eq_right
  | off v =>
    have hn := toNat_encodeOperand_off v
    have hv := v.isLt
    rw [decodeOperand_off (by omega) (by omega)]
    exact congrArg Operand.off BitVec.extractLsb'_append_eq_right
  | reg mm r =>
    have hn := toNat_encodeOperand_reg mm r
    have hmm : mm.toNat ≠ 0 := fun e => bne_iff_ne.mp h (BitVec.eq_of_toNat_eq e)
    have hmm4 := mm.isLt
    have hr := r.isLt
    have hmode : (encodeOperand (.reg mm r)).extractLsb' 4 2 = mm := by
      apply BitVec.eq_of_toNat_eq
      simp only [BitVec.extractLsb'_toNat, Nat.shiftRight_eq_div_pow]
      omega
    have hvalue : (encodeOperand (.reg mm r)).extractLsb' 0 4 = r := BitVec.extractLsb'_append_eq_right
    rw [decodeOperand_reg (by omega) (by omega), hmode, hvalue]
  | narrow v =>
    have hn := toNat_encodeOperand_narrow v
    have hv := v.isLt
    rw [decodeOperand_narrow (by omega)]
    exact congrArg Operand.narrow BitVec.extractLsb'_append_eq_right

/-! ### Instruction words and back (30_encoding.md R70 to R72) -/

@[simp] theorem Instr.instr_opcode_operands (i : Instr) :
    i.opcode.instr i.operands.1 i.operands.2.1 i.operands.2.2 = i := by
  cases i <;> rfl

@[simp] theorem Opcode.opcode_instr (o : Opcode) (d a b : Operand) : (o.instr d a b).opcode = o := by
  cases o <;> rfl

@[simp] theorem Opcode.operands_instr (o : Opcode) (d a b : Operand) : (o.instr d a b).operands = (d, a, b) := by
  cases o <;> rfl

theorem Instr.wf_iff (i : Instr) :
    i.wf = true ↔ i.operands.1.wf = true ∧ i.operands.2.1.wf = true ∧ i.operands.2.2.wf = true := by
  simp only [Instr.wf, Bool.and_eq_true, and_assoc]

/-- What a word that decodes means: the opcode of its first byte with the operands of the other three. -/
theorem decodeWord_eq_ok_iff {w : InsnWord} {i : Instr} :
    decodeWord w = .ok i ↔
      ∃ o : Opcode, o.code = opcodeByte w ∧
        i = o.instr (decodeOperand (destByte w)) (decodeOperand (op1Byte w)) (decodeOperand (op2Byte w)) := by
  unfold decodeWord
  cases ho : decodeOp (opcodeByte w) with
  | none =>
    have hne := decodeOp_eq_none_iff.mp ho
    simp [hne]
  | some o =>
    have hcode := code_of_decodeOp ho
    constructor
    · intro h
      exact ⟨o, hcode, (Except.ok.inj h).symm⟩
    · rintro ⟨o', ho', rfl⟩
      obtain rfl : o = o' := Option.some.inj (ho.symm.trans (ho' ▸ decodeOp_code o'))
      rfl

theorem decodeWord_encode {i : Instr} (h : i.wf = true) : decodeWord (encode i) = .ok i := by
  obtain ⟨hd, ha, hb⟩ := i.wf_iff.mp h
  rw [decodeWord_eq_ok_iff]
  refine ⟨i.opcode, (opcodeByte_packWord _ _ _ _).symm, ?_⟩
  simp only [encode, destByte_packWord, op1Byte_packWord, op2Byte_packWord, decodeOperand_encodeOperand hd,
    decodeOperand_encodeOperand ha, decodeOperand_encodeOperand hb, Instr.instr_opcode_operands]

/-- The bytes of a word decode as the word does, and the bytes after them are left. -/
theorem decodeBytes_bytesOfWord_append (w : InsnWord) (rest : List Byte) :
    decodeBytes (bytesOfWord w ++ rest) = (decodeWord w).map (·, rest) := by
  simp only [bytesOfWord, List.cons_append, List.nil_append, decodeBytes, packWord_fields]
  cases decodeWord w <;> rfl

theorem encode_of_decodeWord {w : InsnWord} {i : Instr} (h : decodeWord w = .ok i) : encode i = w := by
  obtain ⟨o, ho, rfl⟩ := decodeWord_eq_ok_iff.mp h
  simp only [encode, Opcode.opcode_instr, Opcode.operands_instr, encodeOperand_decodeOperand, ho, packWord_fields]

theorem wf_of_decodeWord {w : InsnWord} {i : Instr} (h : decodeWord w = .ok i) : i.wf = true := by
  obtain ⟨o, _, rfl⟩ := decodeWord_eq_ok_iff.mp h
  simp only [Instr.wf_iff, Opcode.operands_instr, wf_decodeOperand, and_self]

/-- Settles O5: the fields of the encoded word are the bytes of the opcode and the operands, and each decodes back. -/
theorem decodeOfEncode : Obligations.DecodeOfEncode := by
  intro i rest h
  refine ⟨decodeWord_encode h, ?_⟩
  rw [encodeBytes, decodeBytes_bytesOfWord_append, decodeWord_encode h]
  rfl

/-- Settles O6: every operand byte is the byte of the operand it decodes to. -/
theorem encodeOfDecode : Obligations.EncodeOfDecode :=
  fun _ _ h => ⟨encode_of_decodeWord h, wf_of_decodeWord h⟩

/-- Settles O7, by evaluating the decoder on the seven words. -/
theorem specWordsDecode : Obligations.SpecWordsDecode :=
  ⟨by decide, by decide, by decide, by decide, by decide, by decide, by decide⟩

end Sys2Proof

namespace Sys2Proof.Machine

/-! ### The invariant under a change of one part of the state

Each lemma says which part of `State.Inv` a change touches; the others are read off the state before. -/

theorem State.regsInRange_iff {s : State} : s.regsInRange = true ↔ ∀ r : RegIndex, s.readReg r ≤ s.maxWord := by
  refine ⟨fun h r => State.readReg_le h r, fun h => ?_⟩
  simp only [State.regsInRange, List.all_eq_true, decide_eq_true_eq, Vector.mem_toList_iff, Vector.mem_iff_getElem]
  rintro _ ⟨i, hi, rfl⟩
  exact h ⟨i, hi⟩

/-- Every byte is a word. -/
theorem State.Inv.byte_le {s : State} (h : s.Inv) (b : Byte) : b.toNat ≤ s.maxWord := by
  have h8 : 2 ^ 8 ≤ s.modulus := Nat.pow_le_pow_right (by decide) h.width
  have hb := b.isLt
  rw [s.le_maxWord_iff]
  omega

/-- The console answers and the counter of free values are no part of the invariant. -/
theorem State.Inv.withHostSide {s : State} (h : s.Inv) (lines : List LineAnswer) (acks : List WriteAnswer)
    (draws : Nat) : State.Inv { s with lines := lines, acks := acks, draws := draws } where
  width := h.width
  regs := h.regs
  pc := h.pc
  rom := h.rom
  memForm := h.memForm
  memRange := h.memRange
  latch := fun hv =>
    have hd := h.latch hv
    ⟨hd.codes, hd.pc, hd.word, hd.info, hd.running⟩

theorem Used.inv {i : Instr} {s s₁ : State} (used : Used i s s₁) (h : s.Inv) : s₁.Inv := by
  rw [used.same]
  exact h.withHostSide _ _ s.draws

/-- The codes of every fault are codes of the fault table (60_exceptions.md R220). -/
theorem FaultKind.legalCodes_cause_sub (k : FaultKind) : legalCodes k.cause k.sub = true := by
  cases k <;> rfl

/-- A fault of a running block at a word of the ROM, with an `info` that is a word, is described by its latch. -/
theorem State.Inv.takeFault {s : State} (h : s.Inv) {w : InsnWord} (hrun : s.run = .running)
    (hw : s.rom[s.pc]? = some w) {f : Raised} (hinfo : f.info ≤ s.maxWord) : (s.takeFault f).Inv where
  width := h.width
  regs := h.regs
  pc := h.pc
  rom := h.rom
  memForm := h.memForm
  memRange := h.memRange
  latch := fun _ =>
    ⟨f.kind.legalCodes_cause_sub, rfl, hw.trans (congrArg some (State.currentWord_of_rom hw).symm), hinfo, hrun⟩

/-- A commit keeps the invariant when no fault is latched, the new pc is a word and what it writes are words at an
existing register and an existing address. -/
theorem State.Inv.commit {s : State} (h : s.Inv) (hvalid : s.fault.valid = false) {e : Effect}
    (hpc : e.nextPc + 1 ≤ s.maxWord) (hreg : ∀ r x, e.reg = some (r, x) → x ≤ s.maxWord)
    (hmem : ∀ a x, e.mem = some (a, x) → a < s.cfg.memWords ∧ x ≤ s.maxWord) : (s.commit e).Inv where
  width := h.width
  regs := by
    have hold := State.regsInRange_iff.mp h.regs
    rw [State.regsInRange_iff]
    intro j
    show (s.commit e).readReg j ≤ s.maxWord
    cases he : e.reg with
    | none => simpa [State.readReg, he] using hold j
    | some dest =>
      by_cases hj : dest.1.val = j.val
      · simpa [State.readReg, he, hj] using hreg dest.1 dest.2 he
      · rw [s.commit_readReg_of_ne e dest.1.val (fun r x hr => ?_) j (Ne.symm hj)]
        · exact hold j
        · obtain rfl := Option.some.inj (he.symm.trans hr)
          rfl
  pc := hpc
  rom := h.rom
  memForm := State.commit_wf h.memForm e
  memRange := by
    show (s.commit e).mem.inRange s.cfg.memWords s.maxWord = true
    rw [State.commit_mem]
    split
    · next a x he => exact Memory.inRange_write h.memRange (hmem a x he).1 (hmem a x he).2
    · exact h.memRange
  latch := fun hv => absurd hv (by simp [hvalid])

/-- An instruction that is enabled keeps the invariant. -/
theorem Does.inv {i : Instr} {s t : State} (hdoes : Does i s t) (h : s.Inv) {w : InsnWord} (hrun : s.run = .running)
    (hvalid : s.fault.valid = false) (hw : s.rom[s.pc]? = some w) : t.Inv := by
  cases hdoes with
  | wait => exact h
  | resolveFault f _ _ info => exact h.takeFault hrun hw (info h)
  | ruleFault s₁ f v _ used _ info =>
    have hcfg : s₁.maxWord = s.maxWord := State.maxWord_congr (by rw [used.same])
    have hrun₁ : s₁.run = .running := by rw [used.same]; exact hrun
    have hw₁ : s₁.rom[s₁.pc]? = some w := by rw [used.same]; exact hw
    exact (used.inv h).takeFault hrun₁ hw₁ (hcfg ▸ info h)
  | commit s₁ e v hv used shape inRange =>
    have hcfg : s₁.cfg = s.cfg := by rw [used.same]
    have hmax : s₁.maxWord = s.maxWord := State.maxWord_congr hcfg
    have hv1 : v.v1 ≤ s.maxWord := State.resolve_le h (State.resolveAll_eq_ok hv).2.1
    refine (used.inv h).commit (by rw [used.fault, hvalid]) (hmax ▸ inRange) (fun r x he => ?_) (fun a x he => ?_)
    · obtain ⟨-, -, hword⟩ := shape.reg r x he
      exact hmax ▸ hword h hv1
    · obtain ⟨-, ha, -, j, -, rfl⟩ := shape.mem a x he
      exact ⟨hcfg ▸ ha, hmax ▸ State.readReg_le h.regs j⟩

/-! ### Everything a step can do -/

/-- What a step can do (40_cycle.md R120): nothing when none is enabled, the fault of a word without an opcode, or what
the decoded instruction does. -/
inductive StepDoes (s : State) : State → Prop
  | idle (h : s.fetch = none) : StepDoes s s
  | reject (w : InsnWord) (fetched : s.fetch = some w) :
    StepDoes s (s.takeFault { kind := .unknownOpcode, info := (opcodeByte w).toNat })
  | instr (w : InsnWord) (i : Instr) (t : State) (fetched : s.fetch = some w) (decoded : decodeWord w = .ok i)
    (does : Does i s t) : StepDoes s t

theorem step_does {s t : State} (h : step s = .next t) : StepDoes s t := by
  rcases step_cases s with ⟨hf, hs⟩ | ⟨w, b, hf, -, hs⟩ | ⟨w, i, hf, hd, hs⟩
  · obtain rfl := Host.Outcome.next.inj (h.symm.trans hs)
    exact .idle hf
  · obtain rfl := Host.Outcome.next.inj (h.symm.trans hs)
    exact .reject w hf
  · exact .instr w i t hf hd (exec_does (hs.symm.trans h))

/-- Settles O41, by the cases of a step: a fetched word means a running block without a latched fault at that word. -/
theorem everyStepKeepsInvariant : Obligations.EveryStepKeepsInvariant := by
  intro s t h hstep
  cases step_does hstep with
  | idle => exact h
  | reject w fetched =>
    obtain ⟨hrun, -, hw⟩ := State.fetch_eq_some fetched
    exact h.takeFault hrun hw (h.byte_le _)
  | instr w i _ fetched _ does =>
    obtain ⟨hrun, hvalid, hw⟩ := State.fetch_eq_some fetched
    exact does.inv h hrun hvalid hw

/-! ### Construction and the host's operations (70_reset_and_hazards.md R250 to R252) -/

@[simp] theorem State.constructWith_readReg (c : Config) (r : RegIndex) : (State.constructWith c).readReg r = 0 := by
  simp [State.constructWith, State.readReg]

theorem State.constructWith_inv {c : Config} (h : 8 ≤ c.wordBits) : (State.constructWith c).Inv where
  width := h
  regs := State.regsInRange_iff.mpr fun r => by simp
  pc := Nat.zero_le _
  rom := Nat.zero_le _
  memForm := rfl
  memRange := rfl
  latch := nofun

/-- Settles O42: everything after construction is zero or empty, and no fault is latched. -/
theorem constructionMeetsInvariant : Obligations.ConstructionMeetsInvariant :=
  ⟨State.constructWith_inv (by decide), fun _ h => State.constructWith_inv h⟩

/-- Settles O54: every register reads 0 and so does every address of an empty memory; the rest is by definition. -/
theorem constructionState : Obligations.ConstructionState :=
  fun c => ⟨State.constructWith_readReg c, Memory.read_nil, rfl, rfl, rfl, rfl, rfl, rfl, rfl⟩

theorem State.Inv.startRun {s : State} (h : s.Inv) : s.startRun.Inv := by
  cases hv : s.fault.valid with
  | true => rwa [State.startRun_of_fault hv]
  | false =>
    rw [State.startRun_of_valid_eq_false hv]
    exact ⟨h.width, h.regs, h.pc, h.rom, h.memForm, h.memRange, fun hv' => by simp [hv] at hv'⟩

/-- A load is accepted when the program is no longer than 2^WORD_BITS words, and replaces the ROM. -/
theorem State.load_eq_ok_iff {s t : State} {words : List InsnWord} :
    s.load words = .ok t ↔
      words.length ≤ s.modulus ∧ t = { s.clearFault with rom := words, pc := 0, run := .suspended } := by
  unfold State.load
  split
  · next h => simp [Nat.not_le_of_lt h]
  · next h => simp [Nat.le_of_not_lt h, eq_comm]

theorem State.Inv.load {s t : State} (h : s.Inv) {words : List InsnWord} (hload : s.load words = .ok t) : t.Inv := by
  obtain ⟨hlen, rfl⟩ := State.load_eq_ok_iff.mp hload
  exact ⟨h.width, h.regs, Nat.zero_le _, hlen, h.memForm, h.memRange, nofun⟩

/-- Settles O43, one operation at a time. -/
theorem hostOperationsKeepInvariant : Obligations.HostOperationsKeepInvariant :=
  fun s h => ⟨(State.constructWith_inv h.width).withHostSide [] [] s.draws, h.startRun,
    fun x => h.withHostSide (s.lines ++ [x]) s.acks s.draws, fun x => h.withHostSide s.lines (s.acks ++ [x]) s.draws,
    fun _ _ hload => h.load hload⟩

end Sys2Proof.Machine

namespace Sys2Proof.Machine

/-! ### What an instruction leaves unchanged, by its control signals (30_encoding.md R87) -/

theorem controls_halt_eq_true {o : Opcode} : (controls o).halt = true ↔ o = .hlt := by
  cases o <;> simp [controls]

theorem controls_br_eq_false {o : Opcode} (hjpt : o ≠ .jpt) (hjpf : o ≠ .jpf) : (controls o).br = false := by
  cases o <;> simp_all [controls]

/-- The pc after an instruction is the pc before it, or the committed pc result plus 1, which is a word. -/
theorem Does.pc_cases {i : Instr} {s t : State} (hdoes : Does i s t) :
    t.pc = s.pc ∨
    ∃ n, t.pc = n + 1 ∧ n + 1 ≤ s.maxWord ∧ ((controls i.opcode).br = false → n = s.pc) := by
  cases hdoes with
  | wait => exact .inl rfl
  | resolveFault => exact .inl rfl
  | ruleFault s₁ f v hv used => left; rw [State.takeFault_pc, used.same]
  | commit s₁ e v hv used shape inRange => exact .inr ⟨e.nextPc, rfl, inRange, shape.pcStays⟩

/-- The run state after an instruction is the one before it, or `hlt` has made it Halting. -/
theorem Does.run_cases {i : Instr} {s t : State} (hdoes : Does i s t) :
    t.run = s.run ∨ (i.opcode = .hlt ∧ t.run = .halting) := by
  cases hdoes with
  | wait => exact .inl rfl
  | resolveFault => exact .inl rfl
  | ruleFault s₁ f v hv used => left; rw [State.takeFault_run, used.same]
  | commit s₁ e v hv used shape =>
    cases hh : e.halt with
    | true => exact .inr ⟨controls_halt_eq_true.mp (shape.halt ▸ hh), by simp [hh]⟩
    | false => left; rw [State.commit_run, hh, used.same]; rfl

/-- An instruction leaves the input channel alone, or `sti` uses the first answer. -/
theorem Does.lines_cases {i : Instr} {s t : State} (hdoes : Does i s t) :
    t.lines = s.lines ∨ (i.opcode = .sti ∧ ∃ x, s.lines = x :: t.lines) := by
  cases hdoes with
  | wait => exact .inl rfl
  | resolveFault => exact .inl rfl
  | ruleFault s₁ f v hv used => exact used.lines
  | commit s₁ e v hv used => exact used.lines

/-- An instruction leaves the write answers alone, or `sto` uses the first one. -/
theorem Does.acks_cases {i : Instr} {s t : State} (hdoes : Does i s t) :
    t.acks = s.acks ∨ (i.opcode = .sto ∧ ∃ x, s.acks = x :: t.acks) := by
  cases hdoes with
  | wait => exact .inl rfl
  | resolveFault => exact .inl rfl
  | ruleFault s₁ f v hv used => exact used.acks
  | commit s₁ e v hv used => exact used.acks

/-- An instruction leaves the output channel alone, or `sto` appends one text. -/
theorem Does.output_cases {i : Instr} {s t : State} (hdoes : Does i s t) :
    t.output = s.output ∨ (i.opcode = .sto ∧ ∃ x, t.output = s.output ++ [x]) := by
  cases hdoes with
  | wait => exact .inl rfl
  | resolveFault => exact .inl rfl
  | ruleFault s₁ f v hv used => left; rw [State.takeFault_output, used.same]
  | commit s₁ e v hv used shape =>
    have hout : s₁.output = s.output := by rw [used.same]
    cases he : e.out with
    | none => left; simp [he, hout]
    | some x => exact .inr ⟨shape.out.resolve_left (by simp [he]), x, by simp [he, hout]⟩

/-- No instruction changes the ROM or the parameters. -/
theorem Does.rom_cfg {i : Instr} {s t : State} (hdoes : Does i s t) : t.rom = s.rom ∧ t.cfg = s.cfg := by
  cases hdoes with
  | wait => exact ⟨rfl, rfl⟩
  | resolveFault => exact ⟨rfl, rfl⟩
  | ruleFault s₁ f v hv used => rw [State.takeFault_rom, State.takeFault_cfg, used.same]; exact ⟨rfl, rfl⟩
  | commit s₁ e v hv used => rw [State.commit_rom, State.commit_cfg, used.same]; exact ⟨rfl, rfl⟩

/-- Settles O49: the table by evaluation; for the writes, the signal of the only instruction that makes each. -/
theorem controlSignalsGovernWrites : Obligations.ControlSignalsGovernWrites := by
  refine ⟨by decide, fun b hb => ?unknown, fun o => ?function, fun i s t hexec => ?writes⟩
  case unknown => simp [controlsOfByte, hb]
  case function => cases o <;> decide
  case writes =>
    have hdoes := exec_does hexec
    refine ⟨hdoes.regs_of_rfWe_eq_false, fun hmem => ?_, fun hin => ?_, fun hout => ⟨?_, ?_⟩, fun hhalt => ?_,
      fun hbr => ?_⟩
    · exact hdoes.mem_cases.resolve_right fun ⟨hstr, _⟩ => by simp [hstr, controls] at hmem
    · exact hdoes.lines_cases.resolve_right fun ⟨hsti, _⟩ => by simp [hsti, controls] at hin
    · exact hdoes.acks_cases.resolve_right fun ⟨hsto, _⟩ => by simp [hsto, controls] at hout
    · exact hdoes.output_cases.resolve_right fun ⟨hsto, _⟩ => by simp [hsto, controls] at hout
    · exact hdoes.run_cases.resolve_right fun ⟨hhlt, _⟩ => by simp [hhlt, controls] at hhalt
    · exact hdoes.pc_cases.imp_right fun ⟨n, hpc, _, hstays⟩ => by rw [hpc, hstays hbr]

/-- Settles O47: only a commit writes a register, and only the one that the resolved `dest` names. -/
theorem onlyDestinationRegisterChanges : Obligations.OnlyDestinationRegisterChanges := by
  intro i s t hexec
  cases exec_does hexec with
  | wait => exact ⟨fun _ _ _ _ => rfl, fun _ _ => rfl⟩
  | resolveFault => exact ⟨fun _ _ _ _ => rfl, fun _ _ => rfl⟩
  | ruleFault s₁ f v hv used =>
    have hregs : s₁.regs = s.regs := used.regs
    exact ⟨fun _ _ _ _ => by simp only [State.readReg, State.takeFault_regs, hregs], fun _ _ => hregs⟩
  | commit s₁ e v hv used shape =>
    refine ⟨fun v' hv' j hj => ?_, fun f hf => ?_⟩
    · obtain rfl := Except.ok.inj (hv.symm.trans hv')
      rw [s₁.commit_readReg_of_ne e v.vd (fun r x he => (shape.reg r x he).1) j hj]
      simp only [State.readReg, used.regs]
    · cases hv.symm.trans hf

/-! ### Faults (60_exceptions.md R225, R226) -/

theorem Used.currentWord {i : Instr} {s s₁ : State} (used : Used i s s₁) : s₁.currentWord = s.currentWord := by
  rw [used.same]; rfl

/-- An instruction leaves the latch as it is, or it records a fault and changes nothing else but the console answers. -/
theorem Does.precise {i : Instr} {s t : State} (hdoes : Does i s t) :
    t.fault = s.fault ∨
    ∃ f : Raised, t.fault = (s.takeFault f).fault ∧
      t = { s with fault := t.fault, lines := t.lines, acks := t.acks } := by
  cases hdoes with
  | wait => exact .inl rfl
  | resolveFault f => exact .inr ⟨f, rfl, rfl⟩
  | ruleFault s₁ f _ _ used =>
    refine .inr ⟨f, used.takeFault_fault f, ?_⟩
    rw [used.same]; rfl
  | commit s₁ e _ _ used => exact .inl used.fault

/-- Settles O38, by the cases of a step that leaves a latched fault. -/
theorem faultsArePrecise : Obligations.FaultsArePrecise := by
  intro s t hstep hs ht
  cases step_does hstep with
  | idle => simp [hs] at ht
  | reject w fetched =>
    obtain ⟨-, -, hw⟩ := State.fetch_eq_some fetched
    exact ⟨rfl, .inl rfl, .inl rfl, rfl, by simp [State.currentWord_of_rom hw, hw], rfl⟩
  | instr w i _ fetched _ does =>
    obtain ⟨-, -, hw⟩ := State.fetch_eq_some fetched
    rcases does.precise with hsame | ⟨f, hlatch, hframe⟩
    · simp [hsame, hs] at ht
    · refine ⟨hframe, does.lines_cases.imp_right And.right, does.acks_cases.imp_right And.right, ?_, ?_, ?_⟩
      · rw [hlatch]; rfl
      · rw [hlatch, hw, State.takeFault_fault, State.currentWord_of_rom hw]
      · rw [hlatch]; exact f.kind.legalCodes_cause_sub

/-- Settles O36: a committed pc is a word; at the greatest word a non-branch can only wait or fault. -/
theorem pcStaysInRange : Obligations.PcStaysInRange := by
  intro i s t hexec
  have hdoes := exec_does hexec
  refine ⟨hdoes.pc_cases.imp_right fun ⟨n, hpc, hle, _⟩ => hpc ▸ hle, fun hmax hjpt hjpf => ?_⟩
  cases hdoes with
  | wait hwait => exact .inl ⟨rfl, hwait⟩
  | resolveFault f => exact .inr ⟨rfl, rfl⟩
  | ruleFault s₁ f v hv used =>
    refine .inr ⟨rfl, ?_⟩
    rw [used.same]; rfl
  | commit s₁ e v hv used shape inRange =>
    have hstays : e.nextPc = s.pc := shape.pcStays (controls_br_eq_false hjpt hjpf)
    omega

/-! ### Steps -/

/-- Settles O21: a committed pc is a successor. -/
theorem indexZeroIsNeverReached : Obligations.IndexZeroIsNeverReached := by
  intro s t hstep hpc
  cases step_does hstep with
  | idle => exact ⟨hpc, .inl rfl⟩
  | reject w => exact ⟨hpc, .inr rfl⟩
  | instr w i _ _ _ does =>
    cases does with
    | wait => exact ⟨hpc, .inl rfl⟩
    | resolveFault f => exact ⟨hpc, .inr rfl⟩
    | ruleFault s₁ f v hv used =>
      rw [State.takeFault_pc, used.same] at hpc
      exact ⟨hpc, .inr rfl⟩
    | commit s₁ e => cases hpc

/-- Settles O48: only an instruction that is enabled changes the run state, and of those only `hlt`. -/
theorem runStateTransitions : Obligations.RunStateTransitions := by
  intro s t hstep
  cases step_does hstep with
  | idle => exact .inl rfl
  | reject w => exact .inl rfl
  | instr w i _ fetched decoded does =>
    obtain ⟨hrun, -, -⟩ := State.fetch_eq_some fetched
    exact does.run_cases.imp_right fun ⟨hhlt, hhalting⟩ => ⟨hrun, hhalting, w, i, fetched, decoded, hhlt⟩

/-! ### The ROM holds no data (20_memory.md R62) -/

/-- The state with another ROM. -/
def State.withRom (s : State) (rom : List InsnWord) : State := { s with rom := rom }

/-- The commit does not look at the ROM: only a fault records a word of it. -/
theorem State.finish_withRom {s t : State} {r : Except Raised Effect} (rom : List InsnWord)
    (ht : t.fault.valid = false) (hfin : s.finish r = .next t) :
    (s.withRom rom).finish r = .next (t.withRom rom) := by
  rcases s.finish_cases r with ⟨f, rfl, h⟩ | ⟨e, rfl, hlt, h⟩ | ⟨e, rfl, hle, h⟩ <;>
    obtain rfl := Host.Outcome.next.inj (hfin.symm.trans h)
  · cases ht
  · cases ht
  · exact State.finish_ok (s := s.withRom rom) hle

/-- No rule mentions the ROM: an instruction that leaves no fault has the same effect with any other one. -/
theorem exec_withRom {i : Instr} {s t : State} (rom : List InsnWord) (ht : t.fault.valid = false)
    (hexec : exec i s = .next t) : exec i (s.withRom rom) = .next (t.withRom rom) := by
  cases i with
  | sti d a b =>
    rcases execSti_cases d a b s with ⟨f, _, h⟩ | ⟨r, hreg, hlines, h⟩ | ⟨r, answer, rest, hreg, hlines, h⟩
    · obtain rfl := Host.Outcome.next.inj (hexec.symm.trans h)
      cases ht
    · obtain rfl := Host.Outcome.next.inj (hexec.symm.trans h)
      exact execSti_of_lines_nil (s := t.withRom rom) hreg hlines
    · exact (execSti_of_lines_cons (s := s.withRom rom) hreg hlines).trans
        (State.finish_withRom rom ht (h.symm.trans hexec))
  | sto d a b =>
    rcases execSto_cases d a b s with ⟨f, _, h⟩ | ⟨r, hreg, hacks, h⟩ | ⟨r, rest, hreg, hacks, h⟩ |
      ⟨r, rest, hreg, hacks, h⟩
    · obtain rfl := Host.Outcome.next.inj (hexec.symm.trans h)
      cases ht
    · obtain rfl := Host.Outcome.next.inj (hexec.symm.trans h)
      exact execSto_of_acks_nil (s := t.withRom rom) hreg hacks
    · exact (execSto_of_acks_ok (s := s.withRom rom) hreg hacks).trans
        (State.finish_withRom rom ht (h.symm.trans hexec))
    · obtain rfl := Host.Outcome.next.inj (hexec.symm.trans h)
      cases ht
  | _ d a b => exact State.finish_withRom (s := s) rom ht hexec

/-- Settles O50. -/
theorem romHoldsNoData : Obligations.RomHoldsNoData :=
  fun _ _ _ rom hexec _ ht => exec_withRom rom ht hexec

end Sys2Proof.Machine

namespace Sys2Proof.Machine

/-! ### Runs of any length -/

theorem core_run_succ {s u : State} (h : step s = .next u) (n : Nat) : core.run (n + 1) s = core.run n u := by
  have hcore : core.step s = .next u := h
  simp only [Host.Core.run, hcore]

theorem core_run_succ_iff {n : Nat} {s t : State} :
    core.run (n + 1) s = .next t ↔ ∃ u, step s = .next u ∧ core.run n u = .next t := by
  obtain ⟨u, hu⟩ := step_next s
  simp [core_run_succ hu, hu]

theorem core_run_zero_iff {s t : State} : core.run 0 s = .next t ↔ t = s :=
  ⟨fun h => (Host.Outcome.next.inj h).symm, fun h => h ▸ rfl⟩

/-- A relation that holds of a state and itself, and that a step before it keeps, holds across a run of any length. -/
theorem core_run_induction {R : State → State → Prop} (refl : ∀ s, R s s)
    (step_trans : ∀ {s u t}, step s = .next u → R u t → R s t) {n : Nat} {s t : State}
    (h : core.run n s = .next t) : R s t := by
  induction n generalizing s with
  | zero => exact core_run_zero_iff.mp h ▸ refl s
  | succ n ih =>
    obtain ⟨u, hstep, hrun⟩ := core_run_succ_iff.mp h
    exact step_trans hstep (ih hrun)

/-- A state that steps to itself runs to itself. -/
theorem core_run_of_step_self {s : State} (h : step s = .next s) (n : Nat) : core.run n s = .next s := by
  induction n with
  | zero => rfl
  | succ n ih => rw [core_run_succ h, ih]

theorem StepDoes.rom_cfg {s t : State} (h : StepDoes s t) : t.rom = s.rom ∧ t.cfg = s.cfg := by
  cases h with
  | idle => exact ⟨rfl, rfl⟩
  | reject => exact ⟨rfl, rfl⟩
  | instr w i _ _ _ does => exact does.rom_cfg

/-- Settles O45, step by step. -/
theorem romAndParametersNeverChange : Obligations.RomAndParametersNeverChange := fun _ _ _ hrun =>
  core_run_induction (R := fun s t => t.rom = s.rom ∧ t.cfg = s.cfg) (fun _ => ⟨rfl, rfl⟩)
    (fun hstep ⟨hrom, hcfg⟩ =>
      have ⟨hrom', hcfg'⟩ := (step_does hstep).rom_cfg
      ⟨hrom.trans hrom', hcfg.trans hcfg'⟩) hrun

/-- A step appends to the output channel and uses answers from the front. -/
theorem StepDoes.console {s t : State} (h : StepDoes s t) :
    s.output <+: t.output ∧ t.lines <:+ s.lines ∧ t.acks <:+ s.acks := by
  cases h with
  | idle => exact ⟨List.prefix_rfl, List.suffix_rfl, List.suffix_rfl⟩
  | reject => exact ⟨List.prefix_rfl, List.suffix_rfl, List.suffix_rfl⟩
  | instr w i _ _ _ does =>
    refine ⟨?_, ?_, ?_⟩
    · rcases does.output_cases with h | ⟨-, x, h⟩ <;> rw [h]
      exact List.prefix_append _ _
    · rcases does.lines_cases with h | ⟨-, x, h⟩ <;> rw [h]
      exact List.suffix_cons _ _
    · rcases does.acks_cases with h | ⟨-, x, h⟩ <;> rw [h]
      exact List.suffix_cons _ _

/-- Settles O51, step by step. -/
theorem consoleOrder : Obligations.ConsoleOrder := fun _ _ _ hrun =>
  core_run_induction (R := fun s t => s.output <+: t.output ∧ t.lines <:+ s.lines ∧ t.acks <:+ s.acks)
    (fun _ => ⟨List.prefix_rfl, List.suffix_rfl, List.suffix_rfl⟩)
    (fun hstep ⟨hout, hlines, hacks⟩ =>
      have ⟨hout', hlines', hacks'⟩ := (step_does hstep).console
      ⟨hout'.trans hout, hlines.trans hlines', hacks.trans hacks'⟩) hrun

/-! ### Memory along a run (20_memory.md R59) -/

/-- A fetched `str` whose operands resolve stores to its resolved `dest`. -/
theorem State.storesTo_of_str {s : State} {w : InsnWord} {i : Instr} {v : Resolved} (fetched : s.fetch = some w)
    (decoded : decodeWord w = .ok i) (hstr : i.opcode = .str)
    (hv : s.resolveAll i.operands.1 i.operands.2.1 i.operands.2.2 = .ok v) : s.storesTo v.vd = true := by
  rw [← i.instr_opcode_operands, hstr] at decoded
  simp [State.storesTo, fetched, decoded, Opcode.instr, (State.resolveAll_eq_ok hv).1]

/-- A step that is no `str` to an address leaves its word. -/
theorem step_memRead {s t : State} {a : Nat} (hstep : step s = .next t) (hno : s.storesTo a = false) :
    t.memRead a = s.memRead a := by
  cases step_does hstep with
  | idle => rfl
  | reject => rfl
  | instr w i _ fetched decoded does =>
    rcases does.mem_cases with hmem | ⟨hstr, v, hv, j, -, hmem⟩
    · simp only [State.memRead, hmem]
    · have hne : a ≠ v.vd := by
        rintro rfl
        simp [State.storesTo_of_str fetched decoded hstr hv] at hno
      simp only [State.memRead, hmem, Memory.read_write_other s.mem _ hne]

/-- Settles O52, by induction on the length of the run. -/
theorem memoryHoldsLastStore : Obligations.MemoryHoldsLastStore := by
  intro n
  induction n with
  | zero => intro s t a _ hrun; rw [core_run_zero_iff.mp hrun]
  | succ n ih =>
    intro s t a hno hrun
    obtain ⟨u, hstep, hrest⟩ := core_run_succ_iff.mp hrun
    calc t.memRead a
      _ = u.memRead a := ih u t a (fun k x hk hx => hno (k + 1) x (by omega) ((core_run_succ hstep k).trans hx)) hrest
      _ = s.memRead a := step_memRead hstep (hno 0 s (by omega) rfl)

/-! ### The run loop (40_cycle.md R125 to R128) -/

theorem State.runLoop_of_ended {s : State} (h : s.ended = true) (fuel : Nat) : State.runLoop fuel s = some s := by
  cases fuel <;> simp [State.runLoop, h]

theorem State.runLoop_zero_of_not_ended {s : State} (h : s.ended = false) : State.runLoop 0 s = none := by
  simp [State.runLoop, h]

theorem State.runLoop_succ_of_not_ended {s u : State} (h : s.ended = false) (hstep : step s = .next u) (fuel : Nat) :
    State.runLoop (fuel + 1) s = State.runLoop fuel u := by
  simp [State.runLoop, h, hstep]

/-- A state at the end of a run is where stepping from it ends first. -/
theorem State.endsAfter_iff_of_ended {s t : State} {k : Nat} (h : s.ended = true) :
    s.EndsAfter k t ↔ k = 0 ∧ t = s := by
  constructor
  · intro he
    cases k with
    | zero => exact ⟨rfl, core_run_zero_iff.mp he.reached⟩
    | succ k =>
      have := he.first 0 s (by omega) rfl
      simp [h] at this
  · rintro ⟨rfl, rfl⟩
    exact ⟨rfl, h, fun j _ hj => absurd hj (by omega)⟩

theorem State.not_endsAfter_zero {s t : State} (h : s.ended = false) : ¬ s.EndsAfter 0 t := by
  intro he
  have hend := he.ended
  rw [core_run_zero_iff.mp he.reached, h] at hend
  cases hend

/-- Before the end, stepping ends one step later than from the next state. -/
theorem State.endsAfter_succ_iff {s t u : State} {k : Nat} (h : s.ended = false) (hstep : step s = .next u) :
    s.EndsAfter (k + 1) t ↔ u.EndsAfter k t := by
  constructor
  · rintro ⟨hreached, hended, hfirst⟩
    exact ⟨(core_run_succ hstep k).symm.trans hreached, hended,
      fun j x hj hx => hfirst (j + 1) x (by omega) ((core_run_succ hstep j).trans hx)⟩
  · rintro ⟨hreached, hended, hfirst⟩
    refine ⟨(core_run_succ hstep k).trans hreached, hended, fun j x hj hx => ?_⟩
    cases j with
    | zero => rw [core_run_zero_iff.mp hx, h]
    | succ j => exact hfirst j x (by omega) ((core_run_succ hstep j).symm.trans hx)

/-- The loop answers the first end that stepping reaches within the fuel. -/
theorem State.runLoop_eq_some_iff {fuel : Nat} {s t : State} :
    State.runLoop fuel s = some t ↔ ∃ k, k ≤ fuel ∧ s.EndsAfter k t := by
  induction fuel generalizing s with
  | zero =>
    cases h : s.ended with
    | true => simp [State.runLoop_of_ended h, State.endsAfter_iff_of_ended h, eq_comm]
    | false => simp [State.runLoop_zero_of_not_ended h, State.not_endsAfter_zero h]
  | succ fuel ih =>
    cases h : s.ended with
    | true => simp [State.runLoop_of_ended h, State.endsAfter_iff_of_ended h, eq_comm]
    | false =>
      obtain ⟨u, hstep⟩ := step_next s
      rw [State.runLoop_succ_of_not_ended h hstep, ih]
      constructor
      · rintro ⟨k, hk, he⟩
        exact ⟨k + 1, by omega, (State.endsAfter_succ_iff h hstep).mpr he⟩
      · rintro ⟨k, hk, he⟩
        cases k with
        | zero => exact absurd he (State.not_endsAfter_zero h)
        | succ k => exact ⟨k, by omega, (State.endsAfter_succ_iff h hstep).mp he⟩

/-- A block that is not Suspended never becomes so by stepping. -/
theorem core_run_not_suspended {n : Nat} {s t : State} (hrun : core.run n s = .next t) (hs : s.run ≠ .suspended) :
    t.run ≠ .suspended :=
  core_run_induction (R := fun s t => s.run ≠ .suspended → t.run ≠ .suspended) (fun _ h => h)
    (fun {s u t} hstep ih hne => ih <| by
      rcases runStateTransitions s u hstep with h | ⟨-, h, -⟩ <;> rw [h]
      · exact hne
      · decide) hrun hs

/-- The end of a run of a block that is not Suspended, by kind. -/
theorem State.runEnd_of_ended {s : State} (h : s.ended = true) (hne : s.run ≠ .suspended) :
    (s.fault.valid = true ∧ s.runEnd = some .faulted) ∨
    (s.fault.valid = false ∧ s.run = .halting ∧ s.runEnd = some .halted) ∨
    (s.fault.valid = false ∧ s.run = .running ∧ s.rom.length ≤ s.pc ∧ s.runEnd = some .exhausted) := by
  cases hv : s.fault.valid with
  | true => exact .inl ⟨rfl, State.runEnd_of_fault hv⟩
  | false =>
    rw [State.runEnd_of_valid_eq_false hv]
    cases hr : s.run with
    | suspended => exact absurd hr hne
    | halting => exact .inr (.inl ⟨rfl, rfl, rfl⟩)
    | running =>
      have hpc : s.rom.length ≤ s.pc := by simpa [State.ended, hv, hr] using h
      exact .inr (.inr ⟨rfl, rfl, hpc, by simp [hpc]⟩)

/-- Settles O53: the loop by induction on the fuel, `run()` as the loop from the state made Running. -/
theorem runIsRepeatedStep : Obligations.RunIsRepeatedStep := by
  intro fuel s t
  refine ⟨State.runLoop_eq_some_iff, fun hvalid => ?_⟩
  have hblock (r : RunReturn) : s.runBlock fuel = some (t, r) ↔
      (∃ k, k ≤ fuel ∧ State.EndsAfter { s with run := .running } k t) ∧ r = t.runReturn := by
    rw [State.runBlock_eq_some, State.startRun_of_valid_eq_false hvalid, State.runLoop_eq_some_iff]
  refine ⟨hblock, fun r hr => ?kind, fun hrom => ?empty, fun hsusp => ?suspended⟩
  case kind =>
    obtain ⟨⟨k, -, hends⟩, -⟩ := (hblock r).mp hr
    exact State.runEnd_of_ended hends.ended (core_run_not_suspended hends.reached (by simp))
  case empty =>
    rw [State.runBlock_eq_some, State.startRun_of_valid_eq_false hvalid]
    exact ⟨State.runLoop_of_ended (by simp [State.ended, hrom]) fuel, by simp [State.runReturn, hvalid]⟩
  case suspended => rw [State.runEnd_of_valid_eq_false hvalid, hsusp]

/-! ### A latched fault and the load (60_exceptions.md R229, 70_reset_and_hazards.md R252) -/

theorem step_of_fetch_none {s : State} (h : s.fetch = none) : step s = .next s := by
  simp only [step, h]

/-- Settles O10: a step that is not enabled fetches nothing. -/
theorem stepDoesNothingUnlessEnabled : Obligations.StepDoesNothingUnlessEnabled := by
  intro s h
  refine step_of_fetch_none (State.fetch_of_not_enabled ?_)
  rw [Bool.eq_false_iff, ne_eq, State.enabled_iff]
  rintro ⟨hrun, hvalid, hpc⟩
  rcases h with h | h | h
  · exact h hrun
  · simp [hvalid] at h
  · omega

theorem State.ended_of_fault {s : State} (h : s.fault.valid = true) : s.ended = true := by
  simp [State.ended, h]

/-- Settles O40: no step is enabled while the latch is valid, and the end of the run holds at once. -/
theorem faultStaysUntilLoad : Obligations.FaultStaysUntilLoad := by
  intro s hvalid
  refine ⟨core_run_of_step_self (stepDoesNothingUnlessEnabled s (.inr (.inl hvalid))), fun fuel => ?_,
    fun words hlen => ⟨_, State.load_eq_ok_iff.mpr ⟨hlen, rfl⟩, rfl⟩⟩
  rw [State.runBlock_eq_some, State.startRun_of_fault hvalid]
  exact ⟨State.runLoop_of_ended (State.ended_of_fault hvalid) fuel, by simp [State.runReturn, hvalid]⟩

theorem State.load_of_too_long {s : State} {words : List InsnWord} (h : 2 ^ s.cfg.wordBits < words.length) :
    s.load words = .error .tooLong := if_pos h

/-- The bytes of words, one after the other, pack to these words again. -/
theorem packProgram_flatMap_bytesOfWord (words : List InsnWord) :
    packProgram (words.flatMap bytesOfWord) = some words := by
  induction words with
  | nil => rfl
  | cons w words ih =>
    simp only [List.flatMap_cons, bytesOfWord, List.cons_append, List.nil_append, packProgram, ih, Option.map_some,
      packWord_fields]

/-- Bytes pack only when they make whole instructions. -/
theorem length_mod_four_of_packProgram {bytes : List Byte} {words : List InsnWord}
    (h : packProgram bytes = some words) : bytes.length % 4 = 0 := by
  induction bytes using packProgram.induct generalizing words with
  | case1 => rfl
  | case2 b0 b1 b2 b3 rest ih =>
    obtain ⟨tail, htail, -⟩ := Option.map_eq_some_iff.mp h
    have := ih htail
    simp only [List.length_cons]
    omega
  | case3 bytes hnil hcons => simp [packProgram] at h

/-- Settles O55. -/
theorem loadEffects : Obligations.LoadEffects := by
  refine fun s => ⟨fun words hlen => ⟨_, State.load_eq_ok_iff.mpr ⟨hlen, rfl⟩, ?_⟩, fun _ => State.load_of_too_long,
    fun words => ?_, fun bytes hlen => ?_⟩
  · exact ⟨rfl, rfl, rfl, rfl, rfl, rfl, rfl, rfl, rfl, rfl⟩
  · simp only [State.loadBytes, packProgram_flatMap_bytesOfWord]
  · cases hpack : packProgram bytes with
    | none => simp only [State.loadBytes, hpack]
    | some words => exact absurd (length_mod_four_of_packProgram hpack) hlen

/-! ### Canonical memories (20_memory.md R57) -/

theorem Memory.wf_cons_iff {a v : Nat} {m : Memory} :
    Memory.wf ((a, v) :: m) = true ↔
      v ≠ Memory.unlisted ∧ m.all (fun c => decide (a < c.1)) = true ∧ m.wf = true := by
  simp only [Memory.wf, Bool.and_eq_true, bne_iff_ne, and_assoc]

theorem Memory.read_cons_same (a v : Nat) (m : Memory) : Memory.read ((a, v) :: m) a = v := if_pos rfl

/-- Below its first address a canonical memory reads as unlisted. -/
theorem Memory.read_cons_of_lt {a b v : Nat} {m : Memory} (h : Memory.wf ((b, v) :: m) = true) (hab : a < b) :
    Memory.read ((b, v) :: m) a = Memory.unlisted := by
  obtain ⟨-, hall, -⟩ := Memory.wf_cons_iff.mp h
  refine Memory.read_of_all_lt ?_
  simp only [List.all_eq_true, decide_eq_true_eq] at hall
  simp only [List.all_cons, Bool.and_eq_true, decide_eq_true_eq, List.all_eq_true]
  exact ⟨hab, fun c hc => hab.trans (hall c hc)⟩

/-- The words above the first listed address are those of the rest. -/
theorem Memory.read_tail {a v : Nat} {m : Memory} (h : Memory.wf ((a, v) :: m) = true) (x : Nat) :
    Memory.read m x = if x = a then Memory.unlisted else Memory.read ((a, v) :: m) x := by
  obtain ⟨-, hall, -⟩ := Memory.wf_cons_iff.mp h
  split
  · next hx => rw [hx, Memory.read_of_all_lt hall]
  · next hx => exact (if_neg hx).symm

/-- Settles O44, by induction along both lists: the first address listed is the first that reads as no unlisted word. -/
theorem equalReadsEqualMemory : Obligations.EqualReadsEqualMemory := by
  intro m
  induction m with
  | nil =>
    rintro (_ | ⟨⟨b, w⟩, n⟩) - hn hread
    · rfl
    · obtain ⟨hw, -, -⟩ := Memory.wf_cons_iff.mp hn
      exact absurd ((Memory.read_cons_same b w n).symm.trans (hread b).symm) hw
  | cons c m ih =>
    obtain ⟨a, v⟩ := c
    rintro (_ | ⟨⟨b, w⟩, n⟩) hm hn hread <;> obtain ⟨hv, -, hm'⟩ := Memory.wf_cons_iff.mp hm
    · exact absurd ((Memory.read_cons_same a v m).symm.trans (hread a)) hv
    · obtain ⟨hw, -, hn'⟩ := Memory.wf_cons_iff.mp hn
      have hv' := Memory.read_cons_same a v m
      have hw' := Memory.read_cons_same b w n
      rcases Nat.lt_trichotomy a b with hlt | rfl | hgt
      · exact absurd (hv'.symm.trans ((hread a).trans (Memory.read_cons_of_lt hn hlt))) hv
      · obtain rfl : v = w := hv'.symm.trans ((hread a).trans hw')
        have htail : m = n := ih n hm' hn' fun x => by rw [Memory.read_tail hm, Memory.read_tail hn, hread]
        rw [htail]
      · exact absurd (hw'.symm.trans ((hread b).symm.trans (Memory.read_cons_of_lt hm hgt))) hw

end Sys2Proof.Machine

namespace Sys2Proof.Machine

/-! ### The step and the word it fetches (40_cycle.md R120) -/

/-- In a running block without a latched fault the word at the pc is the one fetched. -/
theorem State.fetch_of_running {s : State} {w : InsnWord} (hrun : s.run = .running) (hvalid : s.fault.valid = false)
    (hw : s.rom[s.pc]? = some w) : s.fetch = some w := by
  have hpc : s.pc < s.rom.length := (List.getElem?_eq_some_iff.mp hw).1
  rw [State.fetch_of_enabled (s.enabled_iff.mpr ⟨hrun, hvalid, hpc⟩), hw]

theorem step_of_decodeWord_ok {s : State} {w : InsnWord} {i : Instr} (fetched : s.fetch = some w)
    (decoded : decodeWord w = .ok i) : step s = exec i s := by
  simp only [step, fetched, decoded]

theorem step_of_decodeOp_none {s : State} {w : InsnWord} (fetched : s.fetch = some w)
    (hnone : decodeOp (opcodeByte w) = none) : step s = s.rejectWord w := by
  have hdecoded : decodeWord w = .error (.unknownOpcode (opcodeByte w)) := by simp only [decodeWord, hnone]
  simp only [step, fetched, hdecoded]

/-- Settles O9. -/
theorem stepRunsDecodedInstruction : Obligations.StepRunsDecodedInstruction :=
  fun _ _ _ hrun hvalid hw decoded _ => step_of_decodeWord_ok (State.fetch_of_running hrun hvalid hw) decoded

/-- Settles O8: the illegal ranges hold none of the twenty codes, so that the fetched word is rejected. -/
theorem unknownOpcodeIsLatched : Obligations.UnknownOpcodeIsLatched := by
  intro s w hrun hvalid hw hrange
  have hnone : decodeOp (opcodeByte w) = none := by
    rw [opcodeMapIsExact.2]
    simp only [List.mem_cons, List.not_mem_nil, or_false]
    simp only at hrange
    omega
  rw [step_of_decodeOp_none (State.fetch_of_running hrun hvalid hw) hnone]
  simp only [State.rejectWord, State.takeFault, State.currentWord_of_rom hw, FaultKind.cause, FaultKind.sub]

/-! ### Operands that do not resolve (30_encoding.md R77) -/

theorem State.consoleReg_of_resolveAll_error {s : State} {d a b : Operand} {f : Raised}
    (h : s.resolveAll d a b = .error f) : s.consoleReg d a b = .error f := by
  simp only [State.consoleReg, h]; rfl

/-- Every instruction takes the fault of its operands before anything else. -/
theorem exec_of_resolveAll_error {i : Instr} {s : State} {f : Raised}
    (h : s.resolveAll i.operands.1 i.operands.2.1 i.operands.2.2 = .error f) : exec i s = .next (s.takeFault f) := by
  cases i with
  | sti d a b => exact execSti_of_error (State.consoleReg_of_resolveAll_error h)
  | sto d a b => exact execSto_of_error (State.consoleReg_of_resolveAll_error h)
  | _ d a b => exact State.perform_error _ h

/-- Settles O35: an offset that overflows is the first operand fault of the three. -/
theorem operandFaultsComeFirst : Obligations.OperandFaultsComeFirst := by
  intro i s v hlt
  have hoff : s.resolve (.off v) = .error { kind := .operand, info := (s.pc + v.toNat) % s.modulus } :=
    State.offset_of_lt hlt
  have hlatch (h : s.resolveAll i.operands.1 i.operands.2.1 i.operands.2.2 =
      .error { kind := .operand, info := (s.pc + v.toNat) % s.modulus }) :
      exec i s = .next (s.latching 3 3 ((s.pc + v.toNat) % 2 ^ s.cfg.wordBits)) := exec_of_resolveAll_error h
  exact ⟨fun hd => hlatch (State.resolveAll_of_dest _ _ (hd ▸ hoff)),
    fun vd hd ha => hlatch (State.resolveAll_of_op1 _ hd (ha ▸ hoff)),
    fun vd v1 hd ha hb => hlatch (State.resolveAll_of_op2 hd ha (hb ▸ hoff))⟩

/-! ### How an instruction ends, by the checks of its rule -/

theorem State.finish_bind_ok {α : Type} {s : State} {x : Except Raised α} {y : α} {k : α → Except Raised Effect}
    (h : x = .ok y) : s.finish (x >>= k) = s.finish (k y) := by
  rw [h]; rfl

theorem State.finish_bind_error {α : Type} {s : State} {x : Except Raised α} {f : Raised}
    {k : α → Except Raised Effect} (h : x = .error f) : s.finish (x >>= k) = .next (s.takeFault f) := by
  rw [h]; rfl

/-- The result is written into `x[vd]`, and the pc advances. -/
theorem State.finish_writeResult {s : State} {vd : Nat} (r : Nat) (hvd : vd < 16) (hpc : s.pc + 1 ≤ s.maxWord) :
    s.finish (s.writeResult vd r) = .next { s with regs := s.regs.set vd r hvd, pc := s.pc + 1 } := by
  rw [State.writeResult_of_lt r hvd]
  exact State.finish_ok hpc

/-- A destination of 16 or more latches OutOfBounds(Register, vd). -/
theorem State.finish_writeResult_of_le {s : State} {vd : Nat} (r : Nat) (hvd : 16 ≤ vd) :
    s.finish (s.writeResult vd r) = .next (s.latching 3 0 vd) := by
  rw [State.writeResult_of_le r hvd]
  rfl

/-- At the greatest word the pc increment latches OutOfBounds(Pc), and the result is not written. -/
theorem State.finish_writeResult_overflow {s : State} {vd : Nat} (r : Nat) (hvd : vd < 16)
    (hpc : s.maxWord < s.pc + 1) :
    s.finish (s.writeResult vd r) = .next (s.latching 3 2 ((s.pc + 1) % 2 ^ s.cfg.wordBits)) := by
  rw [State.writeResult_of_lt r hvd]
  exact State.finish_overflow hpc

section Resolved

variable {s : State} {d a b : Operand} {vd v1 v2 : Nat}

/-! ### Each instruction on resolved operands: its rule, once -/

theorem State.ResolvesTo.exec_hlt (h : s.ResolvesTo d a b vd v1 v2) :
    exec (.hlt d a b) s = s.finish (.ok { nextPc := s.pc, halt := true }) :=
  State.perform_ok _ h.dest h.op1 h.op2

theorem State.ResolvesTo.exec_ldr (h : s.ResolvesTo d a b vd v1 v2) :
    exec (.ldr d a b) s = s.finish (s.checkMem v1 >>= fun x => s.writeResult vd (s.memRead x)) :=
  State.perform_ok _ h.dest h.op1 h.op2

theorem State.ResolvesTo.exec_str (h : s.ResolvesTo d a b vd v1 v2) :
    exec (.str d a b) s = s.finish (checkReg v1 >>= fun r => s.checkMem vd >>= fun x =>
      .ok { nextPc := s.pc, mem := some (x, s.readReg r) }) :=
  State.perform_ok _ h.dest h.op1 h.op2

theorem State.ResolvesTo.exec_set (h : s.ResolvesTo d a b vd v1 v2) :
    exec (.set d a b) s = s.finish (s.writeResult vd v1) :=
  State.perform_ok _ h.dest h.op1 h.op2

theorem State.ResolvesTo.exec_cpy (h : s.ResolvesTo d a b vd v1 v2) :
    exec (.cpy d a b) s = s.finish (checkReg v1 >>= fun r => s.writeResult vd (s.readReg r)) :=
  State.perform_ok _ h.dest h.op1 h.op2

theorem State.ResolvesTo.exec_jpt (h : s.ResolvesTo d a b vd v1 v2) :
    exec (.jpt d a b) s = s.finish (s.branch (v1 != 0) { vd := vd, v1 := v1, v2 := v2 }) :=
  State.perform_ok _ h.dest h.op1 h.op2

theorem State.ResolvesTo.exec_jpf (h : s.ResolvesTo d a b vd v1 v2) :
    exec (.jpf d a b) s = s.finish (s.branch (v1 == 0) { vd := vd, v1 := v1, v2 := v2 }) :=
  State.perform_ok _ h.dest h.op1 h.op2

theorem State.ResolvesTo.exec_add (h : s.ResolvesTo d a b vd v1 v2) :
    exec (.add d a b) s = s.finish (s.fit ((v1 : Int) + v2) >>= s.writeResult vd) :=
  State.perform_ok _ h.dest h.op1 h.op2

theorem State.ResolvesTo.exec_sub (h : s.ResolvesTo d a b vd v1 v2) :
    exec (.sub d a b) s = s.finish (s.fit ((v1 : Int) - v2) >>= s.writeResult vd) :=
  State.perform_ok _ h.dest h.op1 h.op2

theorem State.ResolvesTo.exec_mul (h : s.ResolvesTo d a b vd v1 v2) :
    exec (.mul d a b) s = s.finish (s.fit ((v1 : Int) * v2) >>= s.writeResult vd) :=
  State.perform_ok _ h.dest h.op1 h.op2

theorem State.ResolvesTo.exec_div (h : s.ResolvesTo d a b vd v1 v2) :
    exec (.div d a b) s = s.finish (quotient v1 v2 >>= s.writeResult vd) :=
  State.perform_ok _ h.dest h.op1 h.op2

theorem State.ResolvesTo.exec_mod (h : s.ResolvesTo d a b vd v1 v2) :
    exec (.mod d a b) s = s.finish (remainder v1 v2 >>= s.writeResult vd) :=
  State.perform_ok _ h.dest h.op1 h.op2

theorem State.ResolvesTo.exec_eql (h : s.ResolvesTo d a b vd v1 v2) :
    exec (.eql d a b) s = s.finish (s.writeResult vd (bool01 (decide (v1 = v2)))) :=
  State.perform_ok _ h.dest h.op1 h.op2

theorem State.ResolvesTo.exec_neq (h : s.ResolvesTo d a b vd v1 v2) :
    exec (.neq d a b) s = s.finish (s.writeResult vd (bool01 (decide (v1 ≠ v2)))) :=
  State.perform_ok _ h.dest h.op1 h.op2

theorem State.ResolvesTo.exec_let (h : s.ResolvesTo d a b vd v1 v2) :
    exec (.let_ d a b) s = s.finish (s.writeResult vd (bool01 (decide (v1 < v2)))) :=
  State.perform_ok _ h.dest h.op1 h.op2

theorem State.ResolvesTo.exec_leq (h : s.ResolvesTo d a b vd v1 v2) :
    exec (.leq d a b) s = s.finish (s.writeResult vd (bool01 (decide (v1 ≤ v2)))) :=
  State.perform_ok _ h.dest h.op1 h.op2

theorem State.ResolvesTo.exec_grt (h : s.ResolvesTo d a b vd v1 v2) :
    exec (.grt d a b) s = s.finish (s.writeResult vd (bool01 (decide (v2 < v1)))) :=
  State.perform_ok _ h.dest h.op1 h.op2

theorem State.ResolvesTo.exec_geq (h : s.ResolvesTo d a b vd v1 v2) :
    exec (.geq d a b) s = s.finish (s.writeResult vd (bool01 (decide (v2 ≤ v1)))) :=
  State.perform_ok _ h.dest h.op1 h.op2

/-! ### The instructions that write a register, once their own check has passed

Each then ends as `State.finish_writeResult` and its two companions say. -/

theorem State.ResolvesTo.exec_ldr_of_lt (h : s.ResolvesTo d a b vd v1 v2) (hv1 : v1 < s.cfg.memWords) :
    exec (.ldr d a b) s = s.finish (s.writeResult vd (s.memRead v1)) :=
  h.exec_ldr.trans (State.finish_bind_ok (State.checkMem_of_lt hv1))

theorem State.ResolvesTo.exec_cpy_of_lt (h : s.ResolvesTo d a b vd v1 v2) (hv1 : v1 < 16) :
    exec (.cpy d a b) s = s.finish (s.writeResult vd (s.readReg ⟨v1, hv1⟩)) :=
  h.exec_cpy.trans (State.finish_bind_ok (checkReg_of_lt hv1))

theorem State.ResolvesTo.exec_add_of_fit (h : s.ResolvesTo d a b vd v1 v2) {r : Nat}
    (hfit : s.fit ((v1 : Int) + v2) = .ok r) : exec (.add d a b) s = s.finish (s.writeResult vd r) :=
  h.exec_add.trans (State.finish_bind_ok hfit)

theorem State.ResolvesTo.exec_sub_of_fit (h : s.ResolvesTo d a b vd v1 v2) {r : Nat}
    (hfit : s.fit ((v1 : Int) - v2) = .ok r) : exec (.sub d a b) s = s.finish (s.writeResult vd r) :=
  h.exec_sub.trans (State.finish_bind_ok hfit)

theorem State.ResolvesTo.exec_mul_of_fit (h : s.ResolvesTo d a b vd v1 v2) {r : Nat}
    (hfit : s.fit ((v1 : Int) * v2) = .ok r) : exec (.mul d a b) s = s.finish (s.writeResult vd r) :=
  h.exec_mul.trans (State.finish_bind_ok hfit)

theorem State.ResolvesTo.exec_div_of_ne_zero (h : s.ResolvesTo d a b vd v1 v2) (hv2 : v2 ≠ 0) :
    exec (.div d a b) s = s.finish (s.writeResult vd (v1 / v2)) :=
  h.exec_div.trans (State.finish_bind_ok (quotient_of_pos hv2))

theorem State.ResolvesTo.exec_mod_of_ne_zero (h : s.ResolvesTo d a b vd v1 v2) (hv2 : v2 ≠ 0) :
    exec (.mod d a b) s = s.finish (s.writeResult vd (v1 - v2 * (v1 / v2))) :=
  h.exec_mod.trans (State.finish_bind_ok (remainder_of_pos hv2))

/-- `str` whose checks pass stores x[v1] at `vd`. -/
theorem State.ResolvesTo.exec_str_of_lt (h : s.ResolvesTo d a b vd v1 v2) (hv1 : v1 < 16) (hvd : vd < s.cfg.memWords) :
    exec (.str d a b) s = s.finish (.ok { nextPc := s.pc, mem := some (vd, s.readReg ⟨v1, hv1⟩) }) :=
  h.exec_str.trans ((State.finish_bind_ok (checkReg_of_lt hv1)).trans
    (State.finish_bind_ok (State.checkMem_of_lt hvd)))

/-! ### The ranges of exact results (43_arith.md R170) -/

theorem State.fit_add_of_le (h : v1 + v2 ≤ s.maxWord) : s.fit ((v1 : Int) + v2) = .ok (v1 + v2) := by
  rw [State.fit_of_le (by omega) (by omega)]
  exact congrArg Except.ok (by omega)

theorem State.fit_sub_of_le (hle : v2 ≤ v1) (h : v1 - v2 ≤ s.maxWord) : s.fit ((v1 : Int) - v2) = .ok (v1 - v2) := by
  rw [State.fit_of_le (by omega) (by omega)]
  exact congrArg Except.ok (by omega)

theorem State.fit_mul_of_le (h : v1 * v2 ≤ s.maxWord) : s.fit ((v1 : Int) * v2) = .ok (v1 * v2) := by
  rw [← Nat.cast_mul, State.fit_of_le (by omega) (by omega), Int.toNat_natCast]

theorem State.fit_add_passes (h : s.cfg.overflow = .wrap ∨ v1 + v2 ≤ s.maxWord) :
    ∃ r, s.fit ((v1 : Int) + v2) = .ok r :=
  State.fit_passes (h.imp_right fun h => ⟨by omega, by omega⟩)

theorem State.fit_sub_passes (h : s.cfg.overflow = .wrap ∨ (v2 ≤ v1 ∧ v1 - v2 ≤ s.maxWord)) :
    ∃ r, s.fit ((v1 : Int) - v2) = .ok r :=
  State.fit_passes (h.imp_right fun h => ⟨by omega, by omega⟩)

theorem State.fit_mul_passes (h : s.cfg.overflow = .wrap ∨ v1 * v2 ≤ s.maxWord) :
    ∃ r, s.fit ((v1 : Int) * v2) = .ok r :=
  State.fit_passes (h.imp_right fun h => ⟨by positivity, by exact_mod_cast h⟩)

/-- Under the policy `wrap` a natural number that is no word is reduced modulo 2^WORD_BITS. -/
theorem State.fit_natCast_wrap {n : Nat} (h : s.maxWord < n) (hp : s.cfg.overflow = .wrap) :
    s.fit (n : Int) = .ok (n % 2 ^ s.cfg.wordBits) := by
  rw [State.fit_wrap (.inr (by exact_mod_cast h)) hp, ← Int.natCast_mod, Int.toNat_natCast]
  rfl

/-- Under the policy `wrap` a negative difference of words is taken in two's complement. -/
theorem State.fit_sub_wrap (hlt : v1 < v2) (hv2 : v2 ≤ s.maxWord) (hp : s.cfg.overflow = .wrap) :
    s.fit ((v1 : Int) - v2) = .ok (v1 + 2 ^ s.cfg.wordBits - v2) := by
  have hm : v2 < s.modulus := (s.le_maxWord_iff v2).mp hv2
  have hmod : ((v1 : Int) - v2) % s.modulus = ((v1 + s.modulus - v2 : Nat) : Int) := by
    rw [← Int.add_emod_right, Int.emod_eq_of_lt (by omega) (by omega)]
    omega
  rw [State.fit_wrap (.inl (by omega)) hp, hmod, Int.toNat_natCast]
  rfl

/-- The eleven ALU instructions end in one way once their own check has passed, if that way does not depend on the
result. -/
theorem State.ResolvesTo.exec_alu_of_passes (h : s.ResolvesTo d a b vd v1 v2) {u : Result}
    (hends : ∀ r, s.finish (s.writeResult vd r) = u) :
    (s.cfg.overflow = .wrap ∨ v1 + v2 ≤ s.maxWord → exec (.add d a b) s = u) ∧
    (s.cfg.overflow = .wrap ∨ (v2 ≤ v1 ∧ v1 - v2 ≤ s.maxWord) → exec (.sub d a b) s = u) ∧
    (s.cfg.overflow = .wrap ∨ v1 * v2 ≤ s.maxWord → exec (.mul d a b) s = u) ∧
    (v2 ≠ 0 → exec (.div d a b) s = u ∧ exec (.mod d a b) s = u) ∧
    exec (.eql d a b) s = u ∧ exec (.neq d a b) s = u ∧ exec (.let_ d a b) s = u ∧ exec (.leq d a b) s = u ∧
    exec (.grt d a b) s = u ∧ exec (.geq d a b) s = u := by
  refine ⟨fun hp => ?_, fun hp => ?_, fun hp => ?_, fun hv2 => ⟨?_, ?_⟩, h.exec_eql.trans (hends _),
    h.exec_neq.trans (hends _), h.exec_let.trans (hends _), h.exec_leq.trans (hends _), h.exec_grt.trans (hends _),
    h.exec_geq.trans (hends _)⟩
  · obtain ⟨r, hfit⟩ := State.fit_add_passes hp
    exact (h.exec_add_of_fit hfit).trans (hends r)
  · obtain ⟨r, hfit⟩ := State.fit_sub_passes hp
    exact (h.exec_sub_of_fit hfit).trans (hends r)
  · obtain ⟨r, hfit⟩ := State.fit_mul_passes hp
    exact (h.exec_mul_of_fit hfit).trans (hends r)
  · exact (h.exec_div_of_ne_zero hv2).trans (hends _)
  · exact (h.exec_mod_of_ne_zero hv2).trans (hends _)

/-! ### Branches on resolved operands (42_branch.md) -/

theorem State.branch_not_taken (v : Resolved) : s.branch false v = .ok { nextPc := s.pc } := rfl

theorem State.branch_taken_of_ok {v : Resolved} {n : Nat} (h : s.branchTarget v.vd v.v2 = .ok n) :
    s.branch true v = .ok { nextPc := n } := by
  simp only [State.branch, if_true, h]; rfl

theorem State.branch_taken_of_error {v : Resolved} {f : Raised} (h : s.branchTarget v.vd v.v2 = .error f) :
    s.branch true v = .error f := by
  simp only [State.branch, if_true, h]; rfl

/-- Both branches with the condition their own opcode takes: `jpt` on a value that is not 0, `jpf` on 0. -/
theorem State.ResolvesTo.exec_branch_taken (h : s.ResolvesTo d a b vd v1 v2) {u : Result}
    (hu : s.finish (s.branch true { vd := vd, v1 := v1, v2 := v2 }) = u) :
    (v1 ≠ 0 → exec (.jpt d a b) s = u) ∧ (v1 = 0 → exec (.jpf d a b) s = u) := by
  refine ⟨fun hv1 => ?_, fun hv1 => ?_⟩
  · rw [h.exec_jpt, bne_iff_ne.mpr hv1, hu]
  · rw [h.exec_jpf, beq_iff_eq.mpr hv1, hu]

theorem State.ResolvesTo.exec_branch_not_taken (h : s.ResolvesTo d a b vd v1 v2) {u : Result}
    (hu : s.finish (.ok { nextPc := s.pc }) = u) :
    (v1 = 0 → exec (.jpt d a b) s = u) ∧ (v1 ≠ 0 → exec (.jpf d a b) s = u) := by
  refine ⟨fun hv1 => ?_, fun hv1 => ?_⟩
  · rw [h.exec_jpt, bne_eq_false_iff_eq.mpr hv1, State.branch_not_taken, hu]
  · rw [h.exec_jpf, beq_eq_false_iff_ne.mpr hv1, State.branch_not_taken, hu]

/-! ### Console instructions on resolved operands (45_io.md) -/

theorem State.ResolvesTo.consoleReg_of_lt (h : s.ResolvesTo d a b vd v1 v2) (hvd : vd < 16) :
    s.consoleReg d a b = .ok ⟨vd, hvd⟩ :=
  (State.consoleReg_ok h.dest h.op1 h.op2).trans (checkReg_of_lt hvd)

theorem State.ResolvesTo.consoleReg_of_le (h : s.ResolvesTo d a b vd v1 v2) (hvd : 16 ≤ vd) :
    s.consoleReg d a b = .error { kind := .register, info := vd } :=
  (State.consoleReg_ok h.dest h.op1 h.op2).trans (checkReg_of_le hvd)

/-- `sti` with a line that parses writes the number as a result, with the line consumed. -/
theorem State.ResolvesTo.exec_sti_of_parse (h : s.ResolvesTo d a b vd v1 v2) (hvd : vd < 16) {text : Text}
    {rest : List LineAnswer} {n : Nat} (hlines : s.lines = .line text :: rest)
    (hparse : parseUnsigned s.maxWord text = some n) :
    exec (.sti d a b) s =
      State.finish { s with lines := rest } (State.writeResult { s with lines := rest } vd n) := by
  have hnumber : s.numberFrom (.line text) = .ok n := by simp only [State.numberFrom, hparse]
  refine (execSti_of_lines_cons (h.consoleReg_of_lt hvd) hlines).trans ?_
  rw [State.finish_bind_ok hnumber, State.writeResult_of_lt n hvd]
  rfl

/-- `sti` with an answer that gives no number takes that fault, with the answer consumed. -/
theorem State.ResolvesTo.exec_sti_of_error (h : s.ResolvesTo d a b vd v1 v2) (hvd : vd < 16) {answer : LineAnswer}
    {rest : List LineAnswer} {f : Raised} (hlines : s.lines = answer :: rest)
    (hnumber : s.numberFrom answer = .error f) :
    exec (.sti d a b) s = .next (State.takeFault { s with lines := rest } f) :=
  (execSti_of_lines_cons (h.consoleReg_of_lt hvd) hlines).trans (State.finish_bind_error hnumber)

end Resolved

/-! ### Halt and data movement (41_move.md) -/

/-- Settles O11. -/
theorem hltHalts : Obligations.HltHalts :=
  fun _ _ _ _ _ _ _ h hpc => h.exec_hlt.trans (State.finish_ok hpc)

/-- Settles O12. -/
theorem ldrLoads : Obligations.LdrLoads :=
  fun _ _ _ _ _ _ _ hvd h hv1 hpc => (h.exec_ldr_of_lt hv1).trans (State.finish_writeResult _ hvd hpc)

/-- Settles O13: the new memory is the old one with one word written. -/
theorem strStores : Obligations.StrStores := fun s _ _ _ vd _ _ hv1 h hvd hpc hwf =>
  ⟨s.mem.write vd (s.readReg ⟨_, hv1⟩), (h.exec_str_of_lt hv1 hvd).trans (State.finish_ok hpc),
    Memory.read_write_same hwf _ _, fun _ hx => Memory.read_write_other s.mem _ hx, Memory.wf_write hwf _ _⟩

/-- Settles O14. -/
theorem setWritesOrFaults : Obligations.SetWritesOrFaults := fun _ _ _ _ _ _ _ h =>
  ⟨fun hvd hpc => h.exec_set.trans (State.finish_writeResult _ hvd hpc),
    fun hvd => h.exec_set.trans (State.finish_writeResult_of_le _ hvd)⟩

/-- Settles O15. -/
theorem cpyCopies : Obligations.CpyCopies :=
  fun _ _ _ _ _ _ _ hvd hv1 h hpc => (h.exec_cpy_of_lt hv1).trans (State.finish_writeResult _ hvd hpc)

/-- Settles O16: the first check that fails is the fault taken. -/
theorem moveFaultOrder : Obligations.MoveFaultOrder := by
  intro s d a b vd v1 v2 h
  refine ⟨fun hv1 => ?_, fun hv1 hvd => ?_, fun hv1 => ?_, fun hv1 hvd => ?_, fun hv1 => ?_, fun hv1 hvd => ?_⟩
  · exact h.exec_ldr.trans (State.finish_bind_error (State.checkMem_of_le hv1))
  · exact (h.exec_ldr_of_lt hv1).trans (State.finish_writeResult_of_le _ hvd)
  · exact h.exec_str.trans (State.finish_bind_error (checkReg_of_le hv1))
  · exact h.exec_str.trans ((State.finish_bind_ok (checkReg_of_lt hv1)).trans
      (State.finish_bind_error (State.checkMem_of_le hvd)))
  · exact h.exec_cpy.trans (State.finish_bind_error (checkReg_of_le hv1))
  · exact (h.exec_cpy_of_lt hv1).trans (State.finish_writeResult_of_le _ hvd)

/-! ### Branches (42_branch.md) -/

/-- Settles O17. -/
theorem branchNotTaken : Obligations.BranchNotTaken :=
  fun _ _ _ _ _ _ _ h hpc => h.exec_branch_not_taken (State.finish_ok hpc)

/-- Settles O18. -/
theorem branchForward : Obligations.BranchForward := by
  intro s d a b vd v1 v2 h hv2 hpc
  refine h.exec_branch_taken ?_
  rw [State.branch_taken_of_ok (State.branchTarget_forward vd hv2)]
  exact State.finish_ok hpc

/-- Settles O19. -/
theorem branchBackward : Obligations.BranchBackward := by
  rintro s d a b vd v1 _ h rfl hvd hpc
  refine h.exec_branch_taken ?_
  rw [State.branch_taken_of_ok (State.branchTarget_back hvd)]
  exact State.finish_ok hpc

/-- Settles O20: below index 0 the target itself faults, beyond the greatest word its increment does. -/
theorem branchFaults : Obligations.BranchFaults := by
  intro s d a b vd v1 v2 h
  refine ⟨?below, ?back, ?forward⟩
  case below =>
    rintro rfl hvd
    refine h.exec_branch_taken ?_
    rw [State.branch_taken_of_error (State.branchTarget_below hvd)]
    rfl
  case back =>
    rintro rfl hvd hpc
    refine h.exec_branch_taken ?_
    rw [State.branch_taken_of_ok (State.branchTarget_back hvd)]
    exact State.finish_overflow hpc
  case forward =>
    intro hv2 hpc
    refine h.exec_branch_taken ?_
    rw [State.branch_taken_of_ok (State.branchTarget_forward vd hv2)]
    exact State.finish_overflow hpc

/-! ### Arithmetic and comparisons (43_arith.md, 44_compare.md) -/

/-- Settles O23. -/
theorem addSubMulResults : Obligations.AddSubMulResults := fun _ _ _ _ _ _ _ hvd h hpc =>
  ⟨fun hr => (h.exec_add_of_fit (State.fit_add_of_le hr)).trans (State.finish_writeResult _ hvd hpc),
    fun hle hr => (h.exec_sub_of_fit (State.fit_sub_of_le hle hr)).trans (State.finish_writeResult _ hvd hpc),
    fun hr => (h.exec_mul_of_fit (State.fit_mul_of_le hr)).trans (State.finish_writeResult _ hvd hpc)⟩

/-- Settles O24: the range check comes before the destination check. -/
theorem overflowFaults : Obligations.OverflowFaults := by
  intro s d a b vd v1 v2 h hp
  refine ⟨fun hr => ?_, fun hr => ?_, fun hr => ?_⟩
  · exact h.exec_add.trans (State.finish_bind_error (State.fit_fault (.inr (by omega)) hp))
  · exact h.exec_sub.trans (State.finish_bind_error (State.fit_fault (.inl (by omega)) hp))
  · exact h.exec_mul.trans (State.finish_bind_error (State.fit_fault (.inr (by exact_mod_cast hr)) hp))

/-- Settles O25. -/
theorem overflowWraps : Obligations.OverflowWraps := by
  intro s d a b vd v1 v2 hvd h hp hpc
  refine ⟨fun hr => ?_, fun hlt hv2 => ?_, fun hr => ?_⟩
  · have hfit := State.fit_natCast_wrap hr hp
    rw [Nat.cast_add] at hfit
    exact (h.exec_add_of_fit hfit).trans (State.finish_writeResult _ hvd hpc)
  · exact (h.exec_sub_of_fit (State.fit_sub_wrap hlt hv2 hp)).trans (State.finish_writeResult _ hvd hpc)
  · have hfit := State.fit_natCast_wrap hr hp
    rw [Nat.cast_mul] at hfit
    exact (h.exec_mul_of_fit hfit).trans (State.finish_writeResult _ hvd hpc)

/-- Settles O26: the quotient and what the subtraction leaves are those of the division with remainder. -/
theorem divModResults : Obligations.DivModResults := by
  intro s d a b vd v1 v2 hvd h hpc hv2
  have hdiv : v2 * (v1 / v2) + v1 % v2 = v1 := Nat.div_add_mod v1 v2
  have hrem : v1 - v2 * (v1 / v2) = v1 % v2 := by omega
  refine ⟨v1 / v2, v1 % v2, hdiv.symm, Nat.mod_lt _ (Nat.pos_of_ne_zero hv2), ?_, ?_⟩
  · exact (h.exec_div_of_ne_zero hv2).trans (State.finish_writeResult _ hvd hpc)
  · rw [h.exec_mod_of_ne_zero hv2, hrem]
    exact State.finish_writeResult _ hvd hpc

/-- Settles O27. -/
theorem zeroDivisorFaults : Obligations.ZeroDivisorFaults := fun _ _ _ _ _ v1 h =>
  ⟨h.exec_div.trans (State.finish_bind_error (quotient_zero v1)),
    h.exec_mod.trans (State.finish_bind_error (remainder_zero v1))⟩

theorem bool01_decide (p : Prop) [Decidable p] : bool01 (decide p) = if p then 1 else 0 := by
  simp only [bool01, decide_eq_true_eq]

/-- Settles O28: `neq`, `leq` and `geq` are stated by the relation that they negate. -/
theorem comparisonResults : Obligations.ComparisonResults := by
  intro s d a b vd v1 v2 hvd h hpc
  have hends (r : Nat) := State.finish_writeResult r hvd hpc
  rw [h.exec_eql, h.exec_neq, h.exec_let, h.exec_leq, h.exec_grt, h.exec_geq]
  simp only [hends, bool01_decide, ne_eq, ite_not, ← Nat.not_lt, and_self]

/-- Settles O29: once an instruction's own check has passed, the destination check is the next to fail. -/
theorem destinationIndexChecked : Obligations.DestinationIndexChecked :=
  fun _ _ _ _ _ _ _ h hvd => h.exec_alu_of_passes fun r => State.finish_writeResult_of_le r hvd

/-! ### Console (45_io.md) -/

/-- Settles O30. -/
theorem stiReadsNumber : Obligations.StiReadsNumber := fun s _ _ _ _ _ _ n hvd _ rest h hlines hparse hpc =>
  (h.exec_sti_of_parse hvd hlines hparse).trans (State.finish_writeResult (s := { s with lines := rest }) n hvd hpc)

/-- Settles O31. -/
theorem stiFaults : Obligations.StiFaults := by
  intro s d a b vd v1 v2 h
  refine ⟨fun hvd => ?_, fun rest hvd hlines => ?_, fun text rest hvd hlines hparse => ?_⟩
  · exact execSti_of_error (h.consoleReg_of_le hvd)
  · exact h.exec_sti_of_error hvd hlines (f := { kind := .read, info := 0 }) rfl
  · exact h.exec_sti_of_error hvd hlines (f := { kind := .parse, info := 0 }) (by simp only [State.numberFrom, hparse])

/-- Settles O32. -/
theorem stoWritesDecimal : Obligations.StoWritesDecimal := fun s _ _ _ _ _ _ hvd rest h hacks hpc =>
  (execSto_of_acks_ok (h.consoleReg_of_lt hvd) hacks).trans (State.finish_ok (s := { s with acks := rest }) hpc)

/-- Settles O33. -/
theorem stoFaults : Obligations.StoFaults := fun _ _ _ _ _ _ _ h =>
  ⟨fun hvd => execSto_of_error (h.consoleReg_of_le hvd),
    fun _ hvd hacks => execSto_of_acks_fail (h.consoleReg_of_lt hvd) hacks⟩

/-- Only `sti` with a legal destination asks for a line. -/
theorem State.requestOf_eq_readLine {s : State} {i : Instr} (h : s.requestOf i = some .readLine) :
    ∃ d a b r, i = .sti d a b ∧ s.consoleReg d a b = .ok r := by
  cases i with
  | sti d a b =>
    cases hreg : s.consoleReg d a b with
    | ok r => exact ⟨d, a, b, r, rfl, hreg⟩
    | error f => simp [State.requestOf, hreg] at h
  | sto d a b => cases hreg : s.consoleReg d a b <;> simp [State.requestOf, hreg] at h
  | _ => cases h

/-- Only `sto` with a legal destination asks for a write. -/
theorem State.requestOf_eq_writeText {s : State} {i : Instr} {text : Text}
    (h : s.requestOf i = some (.writeText text)) : ∃ d a b r, i = .sto d a b ∧ s.consoleReg d a b = .ok r := by
  cases i with
  | sti d a b => cases hreg : s.consoleReg d a b <;> simp [State.requestOf, hreg] at h
  | sto d a b =>
    cases hreg : s.consoleReg d a b with
    | ok r => exact ⟨d, a, b, r, rfl, hreg⟩
    | error f => simp [State.requestOf, hreg] at h
  | _ => cases h

/-- The block requests what the instruction it has fetched requests. -/
theorem State.request_eq_some {s : State} {req : ConsoleRequest} (h : s.request = some req) :
    ∃ w i, s.fetch = some w ∧ decodeWord w = .ok i ∧ s.requestOf i = some req := by
  cases hf : s.fetch with
  | none => simp [State.request, hf] at h
  | some w =>
    cases hd : decodeWord w with
    | error e => simp [State.request, hf, hd] at h
    | ok i => exact ⟨w, i, rfl, hd, by simpa [State.request, hf, hd] using h⟩

/-- A blocked block has fetched a console instruction that finds no answer and waits. -/
theorem step_of_blocked {s : State} (h : s.blocked = true) : step s = .next s := by
  cases hreq : s.request with
  | none => simp [State.blocked, hreq] at h
  | some req =>
    obtain ⟨w, i, fetched, decoded, hi⟩ := State.request_eq_some hreq
    rw [step_of_decodeWord_ok fetched decoded]
    cases req with
    | readLine =>
      have hlines : s.lines = [] := by simpa [State.blocked, hreq] using h
      obtain ⟨d, a, b, r, rfl, hreg⟩ := State.requestOf_eq_readLine hi
      exact execSti_of_lines_nil hreg hlines
    | writeText text =>
      have hacks : s.acks = [] := by simpa [State.blocked, hreq] using h
      obtain ⟨d, a, b, r, rfl, hreg⟩ := State.requestOf_eq_writeText hi
      exact execSto_of_acks_nil hreg hacks

/-- Settles O34. -/
theorem consoleWaitsForHost : Obligations.ConsoleWaitsForHost :=
  ⟨fun _ _ _ _ _ _ _ h hvd =>
    ⟨execSti_of_lines_nil (h.consoleReg_of_lt hvd), execSto_of_acks_nil (h.consoleReg_of_lt hvd)⟩,
    fun _ => step_of_blocked⟩

/-! ### The pc increment at the greatest word (10_state.md R26) -/

/-- Settles O37: an instruction whose own checks pass comes to the pc increment, the last check of all. -/
theorem incrementOverflowLatches : Obligations.IncrementOverflowLatches := by
  intro s d a b vd v1 v2 h hpc
  obtain ⟨hjpt, hjpf⟩ := h.exec_branch_not_taken (State.finish_overflow hpc)
  refine ⟨h.exec_hlt.trans (State.finish_overflow hpc), fun hv1 hvd => ?ldr, fun hv1 hvd => ?str, fun hvd => ?set,
    fun hv1 hvd => ?cpy, hjpt, hjpf, fun hvd => ?results⟩
  case ldr => exact (h.exec_ldr_of_lt hv1).trans (State.finish_writeResult_overflow _ hvd hpc)
  case str => exact (h.exec_str_of_lt hv1 hvd).trans (State.finish_overflow hpc)
  case set => exact h.exec_set.trans (State.finish_writeResult_overflow _ hvd hpc)
  case cpy => exact (h.exec_cpy_of_lt hv1).trans (State.finish_writeResult_overflow _ hvd hpc)
  case results =>
    obtain ⟨hadd, hsub, hmul, hdivmod, heql, hneq, hlet, hleq, hgrt, hgeq⟩ :=
      h.exec_alu_of_passes fun r => State.finish_writeResult_overflow r hvd hpc
    refine ⟨hadd, hsub, hmul, hdivmod, heql, hneq, hlet, hleq, hgrt, hgeq, fun text rest n hlines hparse => ?_,
      fun rest hacks => ?_⟩
    · exact (h.exec_sti_of_parse hvd hlines hparse).trans
        (State.finish_writeResult_overflow (s := { s with lines := rest }) n hvd hpc)
    · exact (execSto_of_acks_ok (h.consoleReg_of_lt hvd) hacks).trans
        (State.finish_overflow (s := { s with acks := rest }) hpc)

end Sys2Proof.Machine

namespace Sys2Proof.Machine

/-! ### Digits (45_io.md R213) -/

theorem isAsciiDigit_digitChar {d : Nat} (h : d < 10) : isAsciiDigit (digitChar d) = true := by
  revert d; decide

theorem digitValue_digitChar {d : Nat} (h : d < 10) : digitValue (digitChar d) = d := by
  revert d; decide

theorem isAsciiDigit_iff {c : Char} : isAsciiDigit c = true ↔ 48 ≤ c.toNat ∧ c.toNat ≤ 57 := by
  simp only [isAsciiDigit, Bool.and_eq_true, decide_eq_true_eq]

/-- A digit is no white space. -/
theorem isWhite_of_isAsciiDigit {c : Char} (h : isAsciiDigit c = true) : isWhite c = false := by
  obtain ⟨hlo, hhi⟩ := isAsciiDigit_iff.mp h
  simp only [isWhite, Bool.or_eq_false_iff, Bool.and_eq_false_iff, decide_eq_false_iff_not, beq_eq_false_iff_ne]
  omega

/-! ### Decimal text: the digits of the quotient by 10, then the last digit -/

theorem decimalDigits_succ_of_lt (fuel : Nat) {v : Nat} (acc : Text) (h : v < 10) :
    decimalDigits (fuel + 1) v acc = digitChar v :: acc := if_pos h

theorem decimalDigits_succ_of_le (fuel : Nat) {v : Nat} (acc : Text) (h : 10 ≤ v) :
    decimalDigits (fuel + 1) v acc = decimalDigits fuel (v / 10) (digitChar (v % 10) :: acc) := if_neg (by omega)

theorem decimalDigits_append (fuel v : Nat) (acc : Text) :
    decimalDigits fuel v acc = decimalDigits fuel v [] ++ acc := by
  induction fuel generalizing v acc with
  | zero => rfl
  | succ fuel ih =>
    rcases Nat.lt_or_ge v 10 with h | h
    · rw [decimalDigits_succ_of_lt fuel _ h, decimalDigits_succ_of_lt fuel _ h]; rfl
    · rw [decimalDigits_succ_of_le fuel _ h, decimalDigits_succ_of_le fuel _ h, ih, ih _ [digitChar (v % 10)]]
      simp

/-- Fuel above the number is enough. -/
theorem decimalDigits_of_lt {fuel v : Nat} (h : v < fuel) : decimalDigits fuel v [] = decimal v := by
  induction fuel using Nat.strong_induction_on generalizing v with
  | _ fuel ih =>
    obtain ⟨n, rfl⟩ : ∃ n, fuel = n + 1 := ⟨fuel - 1, by omega⟩
    rcases Nat.lt_or_ge v 10 with hv | hv
    · rw [decimal, decimalDigits_succ_of_lt n _ hv, decimalDigits_succ_of_lt v _ hv]
    · rw [decimal, decimalDigits_succ_of_le n _ hv, decimalDigits_succ_of_le v _ hv, decimalDigits_append n,
        decimalDigits_append v, ih n (by omega) (by omega), ih v (by omega) (by omega)]

theorem decimal_of_lt {v : Nat} (h : v < 10) : decimal v = [digitChar v] := decimalDigits_succ_of_lt v [] h

theorem decimal_of_le {v : Nat} (h : 10 ≤ v) : decimal v = decimal (v / 10) ++ [digitChar (v % 10)] := by
  rw [decimal, decimalDigits_succ_of_le v _ h, decimalDigits_append, decimalDigits_of_lt (by omega)]

/-- What holds of one digit and is kept by a digit more at the end holds of every decimal text. -/
theorem decimal_induction {motive : Nat → Text → Prop} (digit : ∀ v, v < 10 → motive v [digitChar v])
    (more : ∀ v, 10 ≤ v → motive (v / 10) (decimal (v / 10)) →
      motive v (decimal (v / 10) ++ [digitChar (v % 10)])) (v : Nat) : motive v (decimal v) := by
  induction v using Nat.strong_induction_on with
  | _ v ih =>
    rcases Nat.lt_or_ge v 10 with hv | hv
    · rw [decimal_of_lt hv]; exact digit v hv
    · rw [decimal_of_le hv]; exact more v hv (ih (v / 10) (by omega))

theorem decimal_ne_nil (v : Nat) : decimal v ≠ [] :=
  decimal_induction (motive := fun _ t => t ≠ []) (fun _ _ => by simp) (fun _ _ _ => by simp) v

theorem isAsciiDigit_of_mem_decimal {v : Nat} : ∀ c ∈ decimal v, isAsciiDigit c = true :=
  decimal_induction (motive := fun _ t => ∀ c ∈ t, isAsciiDigit c = true)
    (fun v hv c hc => by
      rw [List.mem_singleton.mp hc]
      exact isAsciiDigit_digitChar hv)
    (fun v _ ih c hc => by
      rcases List.mem_append.mp hc with hc | hc
      · exact ih c hc
      · rw [List.mem_singleton.mp hc]
        exact isAsciiDigit_digitChar (Nat.mod_lt v (by decide))) v

/-- The first digit is the first digit of the quotient, so that it is 0 only for zero. -/
theorem eq_zero_of_head?_decimal {v : Nat} : (decimal v).head? = some '0' → v = 0 :=
  decimal_induction (motive := fun v t => t.head? = some '0' → v = 0)
    (fun v hv h => by
      have hzero := digitValue_digitChar hv
      rw [Option.some.inj h] at hzero
      exact hzero.symm)
    (fun v hv ih h => by
      rw [List.head?_append_of_ne_nil _ (decimal_ne_nil _)] at h
      have := ih h
      omega) v

theorem numberOf_concat (t : Text) (c : Char) : numberOf (t ++ [c]) = 10 * numberOf t + digitValue c := by
  simp only [numberOf, List.foldl_append, List.foldl_cons, List.foldl_nil]

theorem numberOf_decimal (v : Nat) : numberOf (decimal v) = v :=
  decimal_induction (motive := fun v t => numberOf t = v)
    (fun v hv => by simpa [numberOf] using digitValue_digitChar hv)
    (fun v _ ih => by
      rw [numberOf_concat, ih, digitValue_digitChar (Nat.mod_lt v (by decide))]
      omega) v

/-- Leading zeros do not count. -/
theorem numberOf_zeros_append (zeros : Nat) (t : Text) : numberOf (List.replicate zeros '0' ++ t) = numberOf t := by
  have hzeros : numberOf (List.replicate zeros '0') = 0 := by
    induction zeros with
    | zero => rfl
    | succ n ih => rw [List.replicate_succ', numberOf_concat, ih]; rfl
  rw [numberOf, List.foldl_append]
  exact congrArg (fun n => t.foldl _ n) hzeros

/-- The decimal text of a number with zeros before it. -/
def paddedDecimal (zeros v : Nat) : Text := List.replicate zeros '0' ++ decimal v

theorem numberOf_paddedDecimal (zeros v : Nat) : numberOf (paddedDecimal zeros v) = v :=
  (numberOf_zeros_append zeros _).trans (numberOf_decimal v)

theorem paddedDecimal_ne_nil (zeros v : Nat) : paddedDecimal zeros v ≠ [] :=
  List.append_ne_nil_of_right_ne_nil _ (decimal_ne_nil v)

theorem isAsciiDigit_of_mem_paddedDecimal {zeros v : Nat} : ∀ c ∈ paddedDecimal zeros v, isAsciiDigit c = true := by
  intro c hc
  rcases List.mem_append.mp hc with hc | hc
  · rw [List.eq_of_mem_replicate hc]; rfl
  · exact isAsciiDigit_of_mem_decimal c hc

/-! ### Trimming (45_io.md R213, 30_encoding.md R90) -/

theorem trim_eq_rdropWhile (t : Text) : trim t = (t.dropWhile isWhite).rdropWhile isWhite := rfl

/-- Trimming removes the white space around a text that begins and ends with something else. -/
theorem trim_append {before after t : Text} (hbefore : before.all isWhite = true) (hafter : after.all isWhite = true)
    (hne : t ≠ []) (hhead : isWhite (t.head hne) = false) (hlast : isWhite (t.getLast hne) = false) :
    trim (before ++ t ++ after) = t := by
  have hfront : (before ++ t ++ after).dropWhile isWhite = t ++ after := by
    rw [List.append_assoc, List.dropWhile_append_of_pos (List.all_eq_true.mp hbefore)]
    cases t with
    | nil => exact absurd rfl hne
    | cons c t => exact List.dropWhile_cons_of_neg (by simpa using hhead)
  rw [trim_eq_rdropWhile, hfront, List.rdropWhile, List.reverse_append,
    List.dropWhile_append_of_pos (fun c hc => List.all_eq_true.mp hafter c (List.mem_reverse.mp hc))]
  exact List.rdropWhile_eq_self_iff.mpr fun _ => by simp [hlast]

theorem trim_eq_self {t : Text} (hne : t ≠ []) (hhead : isWhite (t.head hne) = false)
    (hlast : isWhite (t.getLast hne) = false) : trim t = t := by
  simpa using trim_append (before := []) (after := []) rfl rfl hne hhead hlast

/-- A run of digits with white space around it parses to its number when that is a word. -/
theorem parseUnsigned_of_digits {maxWord : Nat} {before after digits : Text} (hbefore : before.all isWhite = true)
    (hafter : after.all isWhite = true) (hne : digits ≠ []) (hdigits : ∀ c ∈ digits, isAsciiDigit c = true) :
    parseUnsigned maxWord (before ++ digits ++ after) =
      if numberOf digits ≤ maxWord then some (numberOf digits) else none := by
  have htrim : trim (before ++ digits ++ after) = digits :=
    trim_append hbefore hafter hne (isWhite_of_isAsciiDigit (hdigits _ (List.head_mem hne)))
      (isWhite_of_isAsciiDigit (hdigits _ (List.getLast_mem hne)))
  simp only [parseUnsigned, htrim, List.isEmpty_iff, hne, List.all_eq_true.mpr hdigits, if_true, if_false]

/-- Settles O56. -/
theorem decimalTextParses : Obligations.DecimalTextParses := by
  intro v maxWord zeros before after hbefore hafter
  refine ⟨decimal_ne_nil v, List.all_eq_true.mpr isAsciiDigit_of_mem_decimal, eq_zero_of_head?_decimal, ?_⟩
  rw [List.append_assoc before]
  exact (parseUnsigned_of_digits hbefore hafter (paddedDecimal_ne_nil zeros v)
    isAsciiDigit_of_mem_paddedDecimal).trans (by rw [numberOf_paddedDecimal])

/-! ### Operand text (30_encoding.md R91 to R93) -/

/-- An operand is the longest run of digits and the suffix after it; what is not read is left. -/
theorem parseOperand_of_digits {digits rest : Text} (hne : digits ≠ [])
    (hdigits : ∀ c ∈ digits, isAsciiDigit c = true) (hrest : ∀ c, rest.head? = some c → isAsciiDigit c = false) :
    parseOperand (digits ++ rest) =
      if 255 < numberOf digits then .error (digits ++ rest)
      else .ok (operandByte (parseSuffix rest).1 (numberOf digits), (parseSuffix rest).2) := by
  have hstop : rest.takeWhile isAsciiDigit = [] ∧ rest.dropWhile isAsciiDigit = rest := by
    cases rest with
    | nil => exact ⟨rfl, rfl⟩
    | cons c rest =>
      have hc : ¬ isAsciiDigit c = true := by simp [hrest c rfl]
      exact ⟨List.takeWhile_cons_of_neg hc, List.dropWhile_cons_of_neg hc⟩
  simp only [parseOperand, List.takeWhile_append_of_pos hdigits, List.dropWhile_append_of_pos hdigits, hstop,
    List.append_nil, List.isEmpty_iff, hne, if_false]

/-- The operand of a number up to 255, whatever follows its digits. -/
theorem parseOperand_paddedDecimal {n : Nat} (zeros : Nat) {rest : Text} (hn : n ≤ 255)
    (hrest : ∀ c, rest.head? = some c → isAsciiDigit c = false) :
    parseOperand (paddedDecimal zeros n ++ rest) = .ok (operandByte (parseSuffix rest).1 n, (parseSuffix rest).2) := by
  rw [parseOperand_of_digits (paddedDecimal_ne_nil _ _) isAsciiDigit_of_mem_paddedDecimal hrest,
    numberOf_paddedDecimal, if_neg (by omega)]

/-- Settles O58: every suffix begins with no digit. -/
theorem operandTextEncodes : Obligations.OperandTextEncodes := by
  intro n zeros rest
  refine ⟨fun hn => ?small, fun hn hrest => ?large⟩
  case small =>
    have hletter {c : Char} {t : Text} (hc : isAsciiDigit c = false) :=
      parseOperand_paddedDecimal zeros (rest := c :: t) hn fun c' h => Option.some.inj h ▸ hc
    refine ⟨hletter rfl, hletter rfl, hletter rfl, hletter rfl, ?_⟩
    have hnil := parseOperand_paddedDecimal zeros (rest := []) hn nofun
    rwa [List.append_nil] at hnil
  case large =>
    refine (parseOperand_of_digits (paddedDecimal_ne_nil zeros n) isAsciiDigit_of_mem_paddedDecimal hrest).trans ?_
    rw [numberOf_paddedDecimal, if_pos hn]
    rfl

end Sys2Proof.Machine

namespace Sys2Proof.Machine

/-! ### The byte of an operand's text, as a number (30_encoding.md R92) -/

/-- A flag above the bits of the number adds to it. -/
theorem toNat_operandByte {k flag n : Nat} (hk : 2 ^ k * flag + n < 2 ^ 8) (hn : n < 2 ^ k) :
    (operandByte (BitVec.ofNat 8 (2 ^ k * flag)) n).toNat = 2 ^ k * flag + n := by
  rw [operandByte, BitVec.toNat_or, BitVec.toNat_ofNat, BitVec.toNat_ofNat, Nat.mod_eq_of_lt (by omega),
    Nat.mod_eq_of_lt (by omega), Nat.two_pow_add_eq_or_of_lt hn]

theorem operandByte_imm {b : Byte} (h : 0x80 ≤ b.toNat) : operandByte 0x80#8 (b.toNat % 128) = b := by
  have hb := b.isLt
  have hbyte := toNat_operandByte (k := 7) (flag := 1) (n := b.toNat % 128) (by omega) (by omega)
  exact BitVec.eq_of_toNat_eq (hbyte.trans (by omega))

theorem operandByte_off {b : Byte} (hlo : 0x40 ≤ b.toNat) (hhi : b.toNat ≤ 0x7F) :
    operandByte 0x40#8 (b.toNat % 64) = b := by
  have hbyte := toNat_operandByte (k := 6) (flag := 1) (n := b.toNat % 64) (by omega) (by omega)
  exact BitVec.eq_of_toNat_eq (hbyte.trans (by omega))

theorem toNat_operandByte_reg (b : Byte) : (operandByte 0x10#8 (b.toNat % 16)).toNat = 16 + b.toNat % 16 :=
  toNat_operandByte (k := 4) (flag := 1) (n := b.toNat % 16) (by omega) (by omega)

/-! ### The byte that comes back from reassembly (30_encoding.md R108) -/

theorem reassembledByte_eq_self {b : Byte} (h : b.toNat < 0x20 ∨ 0x40 ≤ b.toNat) : reassembledByte b = b :=
  if_neg (by omega)

/-- A register byte comes back with the flag of the suffix `r`. -/
theorem reassembledByte_reg {b : Byte} (hlo : 0x10 ≤ b.toNat) (hhi : b.toNat ≤ 0x3F) :
    reassembledByte b = operandByte 0x10#8 (b.toNat % 16) := by
  have hbyte := toNat_operandByte_reg b
  rcases Nat.lt_or_ge b.toNat 0x20 with h | h
  · rw [reassembledByte_eq_self (.inl h)]
    exact BitVec.eq_of_toNat_eq (by omega)
  · have hvalue : b &&& 0x0F#8 = BitVec.ofNat 8 (b.toNat % 16) := by
      apply BitVec.eq_of_toNat_eq
      calc (b &&& 0x0F#8).toNat
        _ = b.toNat % 16 := Nat.and_two_pow_sub_one_eq_mod b.toNat 4
        _ = (BitVec.ofNat 8 (b.toNat % 16)).toNat := by rw [BitVec.toNat_ofNat]; omega
    rw [reassembledByte, if_pos ⟨h, by omega⟩, hvalue, operandByte]

/-- The byte that comes back resolves as the byte did: a register operand names the same register. -/
theorem State.resolve_reassembledByte (s : State) (b : Byte) :
    s.resolve (decodeOperand (reassembledByte b)) = s.resolve (decodeOperand b) := by
  by_cases h : 0x10 ≤ b.toNat ∧ b.toNat ≤ 0x3F
  · have hbyte := toNat_operandByte_reg b
    rw [reassembledByte_reg h.1 h.2, s.resolve_decodeOperand_reg (by omega) (by omega),
      s.resolve_decodeOperand_reg h.1 h.2]
    simp only [hbyte, Nat.add_mod_left, Nat.mod_mod]
  · rw [reassembledByte_eq_self (by omega)]

/-! ### Reading back what the disassembler writes -/

/-- The text of an operand byte that assembly text can give is read back as the byte, up to register bytes. -/
theorem parseOperand_renderOperand {b : Byte} (h : 0x10 ≤ b.toNat) (rest : Text) :
    parseOperand (renderOperand b ++ rest) = .ok (reassembledByte b, rest) := by
  have hb := b.isLt
  obtain ⟨himm, hoff, hreg, -⟩ := renderedOperands b
  have hread (n : Nat) (c : Char) (hn : n ≤ 255) (hc : isAsciiDigit c = false) :
      parseOperand (decimal n ++ [c] ++ rest) =
        .ok (operandByte (parseSuffix (c :: rest)).1 n, (parseSuffix (c :: rest)).2) := by
    rw [List.append_assoc]
    exact parseOperand_paddedDecimal 0 (rest := c :: rest) hn fun c' h => Option.some.inj h ▸ hc
  rcases Nat.lt_or_ge b.toNat 0x40 with hlt | hge
  · rw [hreg ⟨h, by omega⟩, hread _ 'r' (by omega) rfl, reassembledByte_reg h (by omega)]
    rfl
  rw [reassembledByte_eq_self (.inr hge)]
  rcases Nat.lt_or_ge b.toNat 0x80 with hlt | hge'
  · rw [hoff ⟨hge, by omega⟩, hread _ 'o' (by omega) rfl]
    exact congrArg (fun x => Except.ok (x, rest)) (operandByte_off hge (by omega))
  · rw [himm hge', hread _ 'i' (by omega) rfl]
    exact congrArg (fun x => Except.ok (x, rest)) (operandByte_imm hge')

theorem parseSpace_cons (rest : Text) : parseSpace (' ' :: rest) = .ok rest := rfl

/-- No mnemonic begins another: the one a text begins with is the one found. -/
theorem parseMnemonic_mnemonic_append (o : Opcode) (rest : Text) :
    parseMnemonic (mnemonic o ++ rest) = .ok (o, rest) := by
  cases o <;> rfl

/-- The text of the third operand: none for the byte 0x00 (30_encoding.md R107). -/
def renderOp2 (b : Byte) : Text := if b = 0x00#8 then [] else [' '] ++ renderOperand b

theorem renderOperands_packWord (o d a b : Byte) :
    renderOperands (packWord o d a b) = ' ' :: (renderOperand d ++ ' ' :: (renderOperand a ++ renderOp2 b)) := by
  simp only [renderOperands, renderOp2, destByte_packWord, op1Byte_packWord, op2Byte_packWord, List.append_assoc,
    List.cons_append, List.nil_append]

theorem parseOp2_renderOp2 {b : Byte} (h : b = 0x00#8 ∨ 0x10 ≤ b.toNat) :
    parseOp2 (renderOp2 b) = .ok (reassembledByte b) := by
  rcases h with rfl | h
  · rfl
  · have hne : b ≠ 0x00#8 := by
      rintro rfl
      simp at h
    have hread := parseOperand_renderOperand h []
    rw [List.append_nil] at hread
    rw [renderOp2, if_neg hne, List.singleton_append]
    simp only [parseOp2, List.isEmpty_cons, Bool.false_eq_true, if_false, parseSpace_cons, bind, Except.bind, hread,
      List.isEmpty_nil, if_true]
    rfl

/-- The text of an operand ends in the letter of its mode. -/
theorem renderOperand_eq_concat (b : Byte) : ∃ t c, renderOperand b = t ++ [c] ∧ isWhite c = false := by
  unfold renderOperand
  cases decodeOperand b <;> exact ⟨_, _, rfl, rfl⟩

theorem renderOperands_eq_concat (w : InsnWord) : ∃ t c, renderOperands w = t ++ [c] ∧ isWhite c = false := by
  obtain ⟨ta, ca, ha, hca⟩ := renderOperand_eq_concat (op1Byte w)
  obtain ⟨tb, cb, hb, hcb⟩ := renderOperand_eq_concat (op2Byte w)
  unfold renderOperands
  split
  · exact ⟨_, ca, by rw [ha, List.append_nil, ← List.append_assoc], hca⟩
  · exact ⟨_, cb, by rw [hb, ← List.append_assoc, ← List.append_assoc], hcb⟩

/-- The disassembled line has no white space at its ends. -/
theorem trim_mnemonic_append_renderOperands (o : Opcode) (w : InsnWord) :
    trim (mnemonic o ++ renderOperands w) = mnemonic o ++ renderOperands w := by
  obtain ⟨t, c, ht, hc⟩ := renderOperands_eq_concat w
  have hne : mnemonic o ++ renderOperands w ≠ [] := by simp [ht]
  refine trim_eq_self hne ?_ ?_
  · cases o <;> rfl
  · simpa [ht] using hc

theorem disassemble_packWord {o : Opcode} (ho : o ≠ .hlt) (d a b : Byte) :
    disassemble (packWord o.code d a b) = mnemonic o ++ renderOperands (packWord o.code d a b) := by
  have hdecode : decodeOp (opcodeByte (packWord o.code d a b)) = some o := by
    rw [opcodeByte_packWord, decodeOp_code]
  cases o with
  | hlt => exact absurd rfl ho
  | _ => simp only [disassemble, hdecode]

/-- The line grammar, part by part, reads back what the disassembler writes. -/
theorem assembleLine_disassemble {o : Opcode} {d a b : Byte} (ho : o ≠ .hlt) (hd : 0x10 ≤ d.toNat)
    (ha : 0x10 ≤ a.toNat) (hb : b = 0x00#8 ∨ 0x10 ≤ b.toNat) :
    assembleLine (disassemble (packWord o.code d a b)) =
      .ok (packWord o.code (reassembledByte d) (reassembledByte a) (reassembledByte b)) := by
  rw [disassemble_packWord ho, assembleLine, trim_mnemonic_append_renderOperands, renderOperands_packWord]
  simp only [assembleTrimmed, parseMnemonic_mnemonic_append, bind, Except.bind, if_neg ho, parseSpace_cons,
    parseOperand_renderOperand hd, parseOperand_renderOperand ha, parseOp2_renderOp2 hb]
  rfl

/-- Settles O60. -/
theorem reassemblyIsIdentical : Obligations.ReassemblyIsIdentical :=
  ⟨by decide, fun _ _ _ _ => assembleLine_disassemble, fun b s => s.resolve_reassembledByte b⟩

end Sys2Proof.Machine
